-- ==== Sys2Proof/Word.lean ====
section
/-! DEFINITION. The word types of the machine (00_scope.md R5, R7; 30_encoding.md R60). -/

namespace Sys2Proof

/-- An 8-bit value: a memory cell, a register `V[i]`, the immediate `nn`. -/
abbrev Byte := BitVec 8

/-- A 16-bit value: an instruction word, `pc`, `I`, a stack entry, a timer's storage. -/
abbrev Word := BitVec 16

/-- The 12-bit immediate `nnn`. -/
abbrev Addr12 := BitVec 12

/-- A register number, 0 to 15 (`V0` to `VF`). -/
abbrev Reg := Fin 16

/-- A logical key, 0x0 to 0xF. -/
abbrev Key := Fin 16

end Sys2Proof
end

