-- ==== Sys2Proof/Syntax.lean ====
section
/-! DEFINITION. The instructions: one constructor for each of the 34 rows of the opcode map
(30_encoding.md R64), in the map's order, with the operands of its format (R61). -/

namespace Sys2Proof

/-- The 34 instruction patterns. Field ranges are the types' own: every register number and every
immediate is legal (30_encoding.md R62). In `seReg` and `sneReg` the last field is the low nibble,
which the decoder does not examine (R67). -/
inductive Instr where
  | cls
  | ret
  | jp (nnn : Addr12)
  | call (nnn : Addr12)
  | seImm (x : Reg) (nn : Byte)
  | sneImm (x : Reg) (nn : Byte)
  | seReg (x y : Reg) (n : BitVec 4)
  | ldImm (x : Reg) (nn : Byte)
  | addImm (x : Reg) (nn : Byte)
  | ldReg (x y : Reg)
  | or (x y : Reg)
  | and (x y : Reg)
  | xor (x y : Reg)
  | addReg (x y : Reg)
  | sub (x y : Reg)
  | shr (x y : Reg)
  | subn (x y : Reg)
  | shl (x y : Reg)
  | sneReg (x y : Reg) (n : BitVec 4)
  | ldI (nnn : Addr12)
  | jpV0 (nnn : Addr12)
  | rnd (x : Reg) (nn : Byte)
  | drw (x y : Reg) (n : Fin 16)
  | skp (x : Reg)
  | sknp (x : Reg)
  | ldVxDt (x : Reg)
  | ldVxK (x : Reg)
  | ldDtVx (x : Reg)
  | ldStVx (x : Reg)
  | addI (x : Reg)
  | ldF (x : Reg)
  | ldB (x : Reg)
  | stRegs (x : Reg)
  | ldRegs (x : Reg)
deriving DecidableEq, Repr

/-- The instruction families, by what an instruction works on (the spec's section files). -/
inductive Family where
  | flow          -- 41_flow.md
  | alu           -- 42_alu.md
  | indexMemory   -- 43_index_memory.md
  | display       -- 44_display.md
  | keysTimers    -- 45_keys_timers.md
deriving DecidableEq, Repr

/-- The section file that describes an instruction (30_encoding.md R65). -/
def Instr.family : Instr → Family
  | .cls | .drw _ _ _ => .display
  | .ret | .jp _ | .call _ | .jpV0 _ => .flow
  | .seImm _ _ | .sneImm _ _ | .seReg _ _ _ | .sneReg _ _ _ => .flow
  | .ldImm _ _ | .addImm _ _ | .ldReg _ _ | .or _ _ | .and _ _ | .xor _ _ => .alu
  | .addReg _ _ | .sub _ _ | .shr _ _ | .subn _ _ | .shl _ _ | .rnd _ _ => .alu
  | .ldI _ | .addI _ | .ldF _ | .ldB _ | .stRegs _ | .ldRegs _ => .indexMemory
  | .skp _ | .sknp _ | .ldVxDt _ | .ldVxK _ | .ldDtVx _ | .ldStVx _ => .keysTimers

end Sys2Proof
end

