-- ==== Sys2Proof/Decode.lean ====
section
/-! DEFINITION. The decoder (30_encoding.md R60 to R68), total on every word, and the encoder
written from the same opcode map (R64). -/

namespace Sys2Proof

/-- The register number that a 4-bit field names (R62). -/
def Reg.ofField (b : BitVec 4) : Reg := ⟨b.toNat, b.isLt⟩

/-- The 4-bit field that names a register. -/
def Reg.toField (r : Reg) : BitVec 4 := BitVec.ofNat 4 r.val

/-- `opcode[15:12]`, the family nibble (R60). -/
def fieldFamily (w : Word) : BitVec 4 := w.extractLsb' 12 4

/-- `x = (opcode & 0x0F00) >> 8` (R60). -/
def fieldX (w : Word) : Reg := Reg.ofField (w.extractLsb' 8 4)

/-- `y = (opcode & 0x00F0) >> 4` (R60). -/
def fieldY (w : Word) : Reg := Reg.ofField (w.extractLsb' 4 4)

/-- `n = opcode & 0x000F` (R60). -/
def fieldN (w : Word) : BitVec 4 := w.extractLsb' 0 4

/-- `nn = opcode & 0x00FF` (R60). -/
def fieldNN (w : Word) : Byte := w.extractLsb' 0 8

/-- `nnn = opcode & 0x0FFF` (R60). -/
def fieldNNN (w : Word) : Addr12 := w.extractLsb' 0 12

/-- Why a word is unrecognized: the family whose sub-opcode matched nothing (R63, R68).
`topNibble` is the case that R63 says cannot occur, since all sixteen nibbles have a family. -/
inductive DecodeReject where
  | family0
  | family8
  | familyE
  | familyF
  | topNibble
deriving DecidableEq, Repr

/-- Family 0: matched on the whole word (R66). -/
def decodeFamily0 (w : Word) : Except DecodeReject Instr :=
  if w = 0x00E0#16 then .ok .cls
  else if w = 0x00EE#16 then .ok .ret
  else .error .family0

/-- Family 8: `n` selects the operation (R63). -/
def decodeFamily8 (w : Word) : Except DecodeReject Instr :=
  match fieldN w with
  | 0x0#4 => .ok (.ldReg (fieldX w) (fieldY w))
  | 0x1#4 => .ok (.or (fieldX w) (fieldY w))
  | 0x2#4 => .ok (.and (fieldX w) (fieldY w))
  | 0x3#4 => .ok (.xor (fieldX w) (fieldY w))
  | 0x4#4 => .ok (.addReg (fieldX w) (fieldY w))
  | 0x5#4 => .ok (.sub (fieldX w) (fieldY w))
  | 0x6#4 => .ok (.shr (fieldX w) (fieldY w))
  | 0x7#4 => .ok (.subn (fieldX w) (fieldY w))
  | 0xE#4 => .ok (.shl (fieldX w) (fieldY w))
  | _ => .error .family8

/-- Family E: `nn` selects the operation (R63). -/
def decodeFamilyE (w : Word) : Except DecodeReject Instr :=
  match fieldNN w with
  | 0x9E#8 => .ok (.skp (fieldX w))
  | 0xA1#8 => .ok (.sknp (fieldX w))
  | _ => .error .familyE

/-- Family F: `nn` selects the operation (R63). -/
def decodeFamilyF (w : Word) : Except DecodeReject Instr :=
  match fieldNN w with
  | 0x07#8 => .ok (.ldVxDt (fieldX w))
  | 0x0A#8 => .ok (.ldVxK (fieldX w))
  | 0x15#8 => .ok (.ldDtVx (fieldX w))
  | 0x18#8 => .ok (.ldStVx (fieldX w))
  | 0x1E#8 => .ok (.addI (fieldX w))
  | 0x29#8 => .ok (.ldF (fieldX w))
  | 0x33#8 => .ok (.ldB (fieldX w))
  | 0x55#8 => .ok (.stRegs (fieldX w))
  | 0x65#8 => .ok (.ldRegs (fieldX w))
  | _ => .error .familyF

/-- The decoder (R63): the top nibble selects the family. Families 5 and 9 do not examine `n`
(R67). -/
def decode (w : Word) : Except DecodeReject Instr :=
  match fieldFamily w with
  | 0x0#4 => decodeFamily0 w
  | 0x1#4 => .ok (.jp (fieldNNN w))
  | 0x2#4 => .ok (.call (fieldNNN w))
  | 0x3#4 => .ok (.seImm (fieldX w) (fieldNN w))
  | 0x4#4 => .ok (.sneImm (fieldX w) (fieldNN w))
  | 0x5#4 => .ok (.seReg (fieldX w) (fieldY w) (fieldN w))
  | 0x6#4 => .ok (.ldImm (fieldX w) (fieldNN w))
  | 0x7#4 => .ok (.addImm (fieldX w) (fieldNN w))
  | 0x8#4 => decodeFamily8 w
  | 0x9#4 => .ok (.sneReg (fieldX w) (fieldY w) (fieldN w))
  | 0xA#4 => .ok (.ldI (fieldNNN w))
  | 0xB#4 => .ok (.jpV0 (fieldNNN w))
  | 0xC#4 => .ok (.rnd (fieldX w) (fieldNN w))
  | 0xD#4 => .ok (.drw (fieldX w) (fieldY w) (Reg.ofField (fieldN w)))
  | 0xE#4 => decodeFamilyE w
  | 0xF#4 => decodeFamilyF w
  | _ => .error .topNibble

/-- The instruction word of two memory bytes, the first at the lower address: big-endian
(20_memory.md R42). -/
def wordOfBytes (hi lo : Byte) : Word := hi ++ lo

/-- Formats of the opcode map (R61): `nnn`. -/
def encodeNNN (fam : BitVec 4) (nnn : Addr12) : Word := fam ++ nnn

/-- Format `x_nn` (R61), and format `x`, whose `nn` is the sub-opcode. -/
def encodeXNN (fam : BitVec 4) (x : Reg) (nn : Byte) : Word := fam ++ (Reg.toField x ++ nn)

/-- Format `x_y_n` (R61), and format `x_y`, whose `n` is the sub-opcode. -/
def encodeXYN (fam : BitVec 4) (x y : Reg) (n : BitVec 4) : Word :=
  fam ++ (Reg.toField x ++ (Reg.toField y ++ n))

/-- The word of an instruction, from the opcode map's patterns (R64). -/
def encode : Instr → Word
  | .cls => 0x00E0#16
  | .ret => 0x00EE#16
  | .jp nnn => encodeNNN 0x1#4 nnn
  | .call nnn => encodeNNN 0x2#4 nnn
  | .seImm x nn => encodeXNN 0x3#4 x nn
  | .sneImm x nn => encodeXNN 0x4#4 x nn
  | .seReg x y n => encodeXYN 0x5#4 x y n
  | .ldImm x nn => encodeXNN 0x6#4 x nn
  | .addImm x nn => encodeXNN 0x7#4 x nn
  | .ldReg x y => encodeXYN 0x8#4 x y 0x0#4
  | .or x y => encodeXYN 0x8#4 x y 0x1#4
  | .and x y => encodeXYN 0x8#4 x y 0x2#4
  | .xor x y => encodeXYN 0x8#4 x y 0x3#4
  | .addReg x y => encodeXYN 0x8#4 x y 0x4#4
  | .sub x y => encodeXYN 0x8#4 x y 0x5#4
  | .shr x y => encodeXYN 0x8#4 x y 0x6#4
  | .subn x y => encodeXYN 0x8#4 x y 0x7#4
  | .shl x y => encodeXYN 0x8#4 x y 0xE#4
  | .sneReg x y n => encodeXYN 0x9#4 x y n
  | .ldI nnn => encodeNNN 0xA#4 nnn
  | .jpV0 nnn => encodeNNN 0xB#4 nnn
  | .rnd x nn => encodeXNN 0xC#4 x nn
  | .drw x y n => encodeXYN 0xD#4 x y (Reg.toField n)
  | .skp x => encodeXNN 0xE#4 x 0x9E#8
  | .sknp x => encodeXNN 0xE#4 x 0xA1#8
  | .ldVxDt x => encodeXNN 0xF#4 x 0x07#8
  | .ldVxK x => encodeXNN 0xF#4 x 0x0A#8
  | .ldDtVx x => encodeXNN 0xF#4 x 0x15#8
  | .ldStVx x => encodeXNN 0xF#4 x 0x18#8
  | .addI x => encodeXNN 0xF#4 x 0x1E#8
  | .ldF x => encodeXNN 0xF#4 x 0x29#8
  | .ldB x => encodeXNN 0xF#4 x 0x33#8
  | .stRegs x => encodeXNN 0xF#4 x 0x55#8
  | .ldRegs x => encodeXNN 0xF#4 x 0x65#8

/-- The `mask` column of the opcode map for an instruction's row (R64). The decoder does not use it. -/
def Instr.mask : Instr → Word
  | .cls | .ret => 0xFFFF#16
  | .jp _ | .call _ | .ldI _ | .jpV0 _ => 0xF000#16
  | .seImm _ _ | .sneImm _ _ | .ldImm _ _ | .addImm _ _ | .rnd _ _ => 0xF000#16
  | .seReg _ _ _ | .sneReg _ _ _ | .drw _ _ _ => 0xF000#16
  | .ldReg _ _ | .or _ _ | .and _ _ | .xor _ _ | .addReg _ _ => 0xF00F#16
  | .sub _ _ | .shr _ _ | .subn _ _ | .shl _ _ => 0xF00F#16
  | .skp _ | .sknp _ | .ldVxDt _ | .ldVxK _ | .ldDtVx _ | .ldStVx _ => 0xF0FF#16
  | .addI _ | .ldF _ | .ldB _ | .stRegs _ | .ldRegs _ => 0xF0FF#16

/-- The `match` column of the opcode map for an instruction's row (R64). -/
def Instr.pattern : Instr → Word
  | .cls => 0x00E0#16
  | .ret => 0x00EE#16
  | .jp _ => 0x1000#16
  | .call _ => 0x2000#16
  | .seImm _ _ => 0x3000#16
  | .sneImm _ _ => 0x4000#16
  | .seReg _ _ _ => 0x5000#16
  | .ldImm _ _ => 0x6000#16
  | .addImm _ _ => 0x7000#16
  | .ldReg _ _ => 0x8000#16
  | .or _ _ => 0x8001#16
  | .and _ _ => 0x8002#16
  | .xor _ _ => 0x8003#16
  | .addReg _ _ => 0x8004#16
  | .sub _ _ => 0x8005#16
  | .shr _ _ => 0x8006#16
  | .subn _ _ => 0x8007#16
  | .shl _ _ => 0x800E#16
  | .sneReg _ _ _ => 0x9000#16
  | .ldI _ => 0xA000#16
  | .jpV0 _ => 0xB000#16
  | .rnd _ _ => 0xC000#16
  | .drw _ _ _ => 0xD000#16
  | .skp _ => 0xE09E#16
  | .sknp _ => 0xE0A1#16
  | .ldVxDt _ => 0xF007#16
  | .ldVxK _ => 0xF00A#16
  | .ldDtVx _ => 0xF015#16
  | .ldStVx _ => 0xF018#16
  | .addI _ => 0xF01E#16
  | .ldF _ => 0xF029#16
  | .ldB _ => 0xF033#16
  | .stRegs _ => 0xF055#16
  | .ldRegs _ => 0xF065#16

/-- The bits of a table row's instruction as one 16-bit word: every instruction is one word
(R60, R70), so bit 0 of the table is bit 0 of the word, and bits at `nbits` and above are 0. -/
def tableWord (nbits w : Nat) : Word := BitVec.ofNat 16 (w % 2 ^ nbits)

/-- The instruction that the decoder reads from a table row's bits, laid out as two bytes, high
byte first (20_memory.md R42). -/
def decodeTableWord (nbits w : Nat) : Option Instr :=
  let t := tableWord nbits w
  match decode (wordOfBytes (t.extractLsb' 8 8) (t.extractLsb' 0 8)) with
  | .ok i => some i
  | .error _ => none

end Sys2Proof
end

