-- ==== Sys2Proof/Config.lean ====
section
/-! DEFINITION. Fixed sizes (00_scope.md R5), the parameters the spec leaves open (00_scope.md R6)
and the free values. -/

namespace Sys2Proof.Config

/-- MEM_SIZE: 4096 cells (R5). -/
abbrev memSize : Nat := 4096

/-- FB_WIDTH (R5). -/
abbrev fbWidth : Nat := 64

/-- FB_HEIGHT (R5). -/
abbrev fbHeight : Nat := 32

/-- The number of pixels, 64 × 32 (R5, 10_state.md R12). -/
abbrev fbPixels : Nat := 2048

/-- STACK_DEPTH (R5). -/
abbrev stackDepth : Nat := 16

/-- PC_RESET (R5). -/
abbrev pcReset : Word := 0x0200

/-- ROM_BASE (R5). -/
abbrev romBase : Nat := 0x200

/-- ROM_MAX: 4096 − 0x200 bytes (R5). -/
abbrev romMax : Nat := 3584

/-- FONT_SIZE: 16 glyphs of 5 bytes (R5). -/
abbrev fontSize : Nat := 80

/-- FONT_BASE (R5, 20_memory.md R46). -/
abbrev fontBase : Nat := 0x000

/-- The two values of the parameter `KEYWAIT_PICK` (00_scope.md R6). -/
inductive KeywaitPick where
  | lowest
  | highest
deriving DecidableEq, Repr, Inhabited

/-- `KEYWAIT_PICK`, open in the spec (00_scope.md R6, 92_eei_decisions.md D14): which of several
pressed keys `Fx0A` loads. No body: nothing can be proved of its value. Log entry 2. -/
opaque keywaitPick : KeywaitPick

/-- The byte that the `k`-th draw of `rand_in` gives when the host's byte is not known
(10_state.md R34, 92_eei_decisions.md D15). No body: a free value. Log entry 1. -/
opaque freeRandom : Nat → Byte

/-- The default of the parameter `FONT`: the table of 20_memory.md R48, one glyph a line.
PRESUMED (the spec marks it as general knowledge). No definition of the step uses it. Log entry 3. -/
def defaultFontBytes : List Byte :=
  [0xF0, 0x90, 0x90, 0x90, 0xF0] ++
  [0x20, 0x60, 0x20, 0x20, 0x70] ++
  [0xF0, 0x10, 0xF0, 0x80, 0xF0] ++
  [0xF0, 0x10, 0xF0, 0x10, 0xF0] ++
  [0x90, 0x90, 0xF0, 0x10, 0x10] ++
  [0xF0, 0x80, 0xF0, 0x10, 0xF0] ++
  [0xF0, 0x80, 0xF0, 0x90, 0xF0] ++
  [0xF0, 0x10, 0x20, 0x40, 0x40] ++
  [0xF0, 0x90, 0xF0, 0x90, 0xF0] ++
  [0xF0, 0x90, 0xF0, 0x10, 0xF0] ++
  [0xF0, 0x90, 0xF0, 0x90, 0x90] ++
  [0xE0, 0x90, 0xE0, 0x90, 0xE0] ++
  [0xF0, 0x80, 0x80, 0x80, 0xF0] ++
  [0xE0, 0x90, 0x90, 0x90, 0xE0] ++
  [0xF0, 0x80, 0xF0, 0x80, 0xF0] ++
  [0xF0, 0x80, 0xF0, 0x80, 0x80]

/-- The default font as the 80 bytes that `launch` takes. -/
def defaultFont : Vector Byte fontSize := ⟨defaultFontBytes.toArray, by decide⟩

end Sys2Proof.Config
end

