-- ==== Sys2Proof/Machine/State.lean ====
section
/-! DEFINITION. The machine's state (10_state.md), its reset value (R26), and the reasons a step
could stop. -/

namespace Sys2Proof.Machine

open Sys2Proof

/-- Memory as data (10_state.md R11): the cells that do not read as the reset contents, at strictly
rising addresses. `Memory.wf` says this canonical form. -/
abbrev Memory := List Host.Cell

/-- What an unlisted address reads as: the reset contents of every cell, 0x00 (10_state.md R26). -/
abbrev Memory.unlisted : Byte := 0

/-- The canonical form: addresses strictly rising, all of the 4096-cell space, no cell equal to the
reset contents. -/
abbrev Memory.wf (m : Memory) : Prop :=
  m.Pairwise (fun c d => c.1 < d.1) ∧ ∀ c ∈ m, c.1 < Config.memSize ∧ c.2 ≠ Memory.unlisted

/-- The diagnostics a step can raise (60_exceptions.md R150). None stops the machine. -/
inductive DiagCode where
  | unrecognizedOpcode   -- code 1, R151
  | selfJump             -- code 2, R152
  | stackOverflow        -- code 3, R153
  | stackUnderflow       -- code 4, R154
deriving DecidableEq, Repr

/-- One diagnostic with the information it carries (60_exceptions.md R150): its cause, the address
`pc0` of the instruction, and the instruction word. -/
structure Diag where
  code : DiagCode
  pc : Word
  opcode : Word
deriving DecidableEq, Repr

/-- The state. The first thirteen fields are the closed list of 10_state.md R10; `diag` and
`diagLog` are the diagnostic outputs (R37) and the sticky log (60_exceptions.md R161); `randIn` and
`draws` are the model's own (log entry 1). -/
structure State where
  /-- `memory`, 4096 × 8 bits (R11). -/
  memory : Memory
  /-- `fb`, 2048 × 1 bit; bit `r*64 + c` is the pixel of column `c` and row `r` (R12, R35). -/
  fb : BitVec Config.fbPixels
  /-- `V0` to `VF`, 16 × 8 bits (R13, R14). -/
  v : Vector Byte 16
  /-- `pc`, 16 bits (R15). -/
  pc : Word
  /-- `I`, 16 bits (R16). -/
  index : Word
  /-- `stack`, 16 × 16 bits (R17). -/
  stack : Vector Word Config.stackDepth
  /-- `sp`, values 0 to 16 (R18). -/
  sp : Fin 17
  /-- `delay_timer`, 16 bits (R19). -/
  delayTimer : Word
  /-- `sound_timer`, 16 bits (R20). -/
  soundTimer : Word
  /-- `key_state`, 16 flags (R21). -/
  keyState : Vector Bool 16
  /-- `current_opcode`, 16 bits (R22). -/
  currentOpcode : Word
  /-- `halted` (R23). -/
  halted : Bool
  /-- `fb_dirty` (R24). -/
  fbDirty : Bool
  /-- `diag_valid`, `diag_code`, `diag_pc`, `diag_opcode` of the step just performed (R37). -/
  diag : Option Diag
  /-- Every diagnostic since reset, oldest first; no step removes one (60_exceptions.md R161). -/
  diagLog : List Diag
  /-- The input port `rand_in` for the coming step (R34): the host's byte where it is known. -/
  randIn : Option Byte
  /-- How many draws of `rand_in` have been made: selects the next free value. -/
  draws : Nat
deriving DecidableEq, Repr

/-- The machine right after reset (10_state.md R26): all zero except `pc`. The ports' fields have
the values of log entries 1 and 7. -/
def State.reset : State where
  memory := []
  fb := 0
  v := Vector.replicate 16 0
  pc := Config.pcReset
  index := 0
  stack := Vector.replicate Config.stackDepth 0
  sp := 0
  delayTimer := 0
  soundTimer := 0
  keyState := Vector.replicate 16 false
  currentOpcode := 0
  halted := false
  fbDirty := false
  diag := none
  diagLog := []
  randIn := none
  draws := 0

/-- The faults of the machine: none. "There is no trap, no fault that stops the machine"
(40_step.md R85; 60_exceptions.md R150, R159). Nobody raises one: the type is empty, which is safe. -/
inductive Fault
deriving DecidableEq, Repr

/-- The refusals of the model. -/
inductive Refusal where
  /-- Raised only by an arm of `exec` whose instruction has no meaning yet. Safe: the model stops
  where the machine goes on. No arm raises it now. -/
  | notModelled (mnemonic : String)
deriving DecidableEq, Repr

end Sys2Proof.Machine
end

