-- ==== Sys2Proof/Machine/Ops.lean ====
section
/-! DEFINITION. The named operations over memory, registers, stack, framebuffer, timers and
diagnostics that the meanings and the step are written with. -/

namespace Sys2Proof.Machine

open Sys2Proof

/-! ### Memory as a list of cells -/

/-- The byte at a listed address, or the reset contents. -/
def Memory.read : Memory → Nat → Byte
  | [], _ => Memory.unlisted
  | (k, b) :: m, a => if k = a then b else Memory.read m a

/-- Remove an address from the list. -/
def Memory.erase (m : Memory) (a : Nat) : Memory := m.filter (fun c => c.1 != a)

/-- Put a cell before the first listed address above it. -/
def Memory.insert : Memory → Nat → Byte → Memory
  | [], a, b => [(a, b)]
  | (k, c) :: m, a, b => if a < k then (a, b) :: (k, c) :: m else (k, c) :: Memory.insert m a b

/-- Write one cell. Writing the reset contents removes the entry. -/
def Memory.write (m : Memory) (a : Nat) (b : Byte) : Memory :=
  if b = Memory.unlisted then m.erase a else (m.erase a).insert a b

/-! ### Memory accesses of the machine -/

/-- The cell an address reaches: the address modulo 4096 (20_memory.md R41). -/
def cellOf (addr : Nat) : Nat := addr % Config.memSize

/-- `MemRead(addr, 1)` (20_memory.md R41). -/
def memRead (s : State) (addr : Nat) : Byte := s.memory.read (cellOf addr)

/-- `MemWrite(addr, 1, v)` (20_memory.md R41). -/
def memWrite (s : State) (addr : Nat) (b : Byte) : State :=
  { s with memory := s.memory.write (cellOf addr) b }

/-- `MemRead(pc0, 2)`, the instruction fetch: big-endian, each byte's address reduced by itself
(20_memory.md R42, 40_step.md R81). -/
def fetchWord (s : State) : Word :=
  wordOfBytes (memRead s s.pc.toNat) (memRead s (s.pc.toNat + 1))

/-! ### Registers -/

/-- Read `V[x]` (10_state.md R13). -/
def getV (s : State) (x : Reg) : Byte := s.v[x.val]

/-- Write `V[x]` (10_state.md R13; no register is hard-wired). -/
def setV (s : State) (x : Reg) (b : Byte) : State := { s with v := s.v.set x.val b }

/-- Write `I` (10_state.md R16). -/
def setIndex (s : State) (a : Word) : State := { s with index := a }

/-- Write `delay_timer` (10_state.md R19). -/
def setDelay (s : State) (t : Word) : State := { s with delayTimer := t }

/-- Write `sound_timer` (10_state.md R20). -/
def setSound (s : State) (t : Word) : State := { s with soundTimer := t }

/-! ### The program counter (40_step.md R82): every instruction writes it once, last -/

/-- `pc <- target`. -/
def jumpTo (s : State) (target : Word) : State := { s with pc := target }

/-- `pc <- (pc0 + 2) mod 65536`. -/
def advance (s : State) : State := jumpTo s (s.pc + 2)

/-- The skips: `+4` when the condition holds, else `+2` (41_flow.md section 5). -/
def skipIf (s : State) (c : Bool) : State := jumpTo s (if c then s.pc + 4 else s.pc + 2)

/-! ### Diagnostics: this hardware's only exceptions (60_exceptions.md R150, R159, R161) -/

/-- `raise Diag(code, pc0, opcode)`: the one shared operation of every error condition. It sets the
diagnostic outputs (R150) and appends to the sticky log (R161). It changes nothing else, transfers
no control and saves nothing (R159); `pc` still holds `pc0`, so it is used before `pc` is written. -/
def raiseDiag (code : DiagCode) (s : State) : State :=
  let d : Diag := { code := code, pc := s.pc, opcode := s.currentOpcode }
  { s with diag := some d, diagLog := s.diagLog ++ [d] }

/-- An operation that is reported and ignored: the diagnostic, then `pc0 + 2`
(40_step.md R84, 60_exceptions.md R153, R154). -/
def reportAndIgnore (code : DiagCode) (s : State) : State := advance (raiseDiag code s)

/-- An unrecognized word (40_step.md R84): a reported no-op. -/
def unrecognized (s : State) : State := reportAndIgnore .unrecognizedOpcode s

/-! ### The call stack (10_state.md R17, R18) -/

/-- Push `pc0`: `stack[sp] <- pc0`, `sp <- sp + 1`. None when all 16 entries are live. -/
def pushPc (s : State) : Option State :=
  if h : s.sp.val < Config.stackDepth then
    some { s with stack := s.stack.set s.sp.val s.pc, sp := ⟨s.sp.val + 1, Nat.succ_lt_succ h⟩ }
  else none

/-- Pop: `sp <- sp - 1`, and the entry `stack[sp]` read after the decrement, which stays in place.
None when no entry is live. -/
def popPc (s : State) : Option (Word × State) :=
  if h : 0 < s.sp.val then
    have hs : s.sp.val - 1 < Config.stackDepth := by have := s.sp.isLt; simp only [Config.stackDepth]; omega
    some (s.stack[s.sp.val - 1], { s with sp := ⟨s.sp.val - 1, by omega⟩ })
  else none

/-! ### The framebuffer (10_state.md R12) -/

/-- `r*64 + c`, the number of the pixel at column `c` and row `r` (R12). -/
def pixelIndex (c r : Nat) : Nat := r * Config.fbWidth + c

/-- Read `fb[i]`. -/
def fbGet (s : State) (i : Nat) : Bool := s.fb.getLsbD i

/-- `fb[i] <- fb[i] XOR 1`. -/
def fbToggle (s : State) (i : Nat) : State :=
  { s with fb := s.fb ^^^ BitVec.twoPow Config.fbPixels i }

/-- `fb[i] <- 0` for every pixel (44_display.md R130). -/
def fbClear (s : State) : State := { s with fb := 0 }

/-- `fb_dirty <- true` (10_state.md R24). -/
def markDirty (s : State) : State := { s with fbDirty := true }

/-! ### The random input (10_state.md R34) -/

/-- The byte on `rand_in`: the host's where it is known, else a free value (log entry 1). -/
def randByte (s : State) : Byte :=
  match s.randIn with
  | some r => r
  | none => Config.freeRandom s.draws

/-- Count one draw: the next unknown byte is a fresh free value. -/
def countDraw (s : State) : State := { s with draws := s.draws + 1 }

/-! ### The phases of a step around the instruction (40_step.md R80) -/

/-- The fetch latches the word (R81), and the diagnostic outputs of the step before are replaced
(60_exceptions.md R150). -/
def latchFetch (s : State) : State := { s with currentOpcode := fetchWord s, diag := none }

/-- Decrement by 1 if nonzero (R83). -/
def tickDown (t : Word) : Word := if t = 0 then 0 else t - 1

/-- The timer tick (R83). -/
def tickTimers (s : State) : State :=
  { s with delayTimer := tickDown s.delayTimer, soundTimer := tickDown s.soundTimer }

/-- `rand_in` is an input of one step (R80): the next step's byte is unknown until it is supplied. -/
def dropRandIn (s : State) : State := { s with randIn := none }

/-- What follows the instruction's effects in every step. -/
def finishStep (s : State) : State := dropRandIn (tickTimers s)

end Sys2Proof.Machine
end

