-- ==== Sys2Proof/Machine/Flags.lean ====
section
/-! DEFINITION. `VF` as a flag (10_state.md R14) and every flag computation (42_alu.md). -/

namespace Sys2Proof.Machine

open Sys2Proof

/-- `VF`, register 15 (10_state.md R14). -/
abbrev flagReg : Reg := 15

/-- A flag's byte: 1 or 0. -/
def flagByte (c : Bool) : Byte := if c then 1 else 0

/-- `V[F] <- 1 if c else 0`. -/
def setFlag (s : State) (c : Bool) : State := setV s flagReg (flagByte c)

/-- `8xy4`: the unsigned sum exceeds 255 (42_alu.md R107). -/
def carryOf (a b : Byte) : Bool := decide (255 < a.toNat + b.toNat)

/-- `8xy5`, `8xy7`: no borrow, the minuend is greater than or equal to the subtrahend
(42_alu.md R108, R110, R113). -/
def noBorrow (a b : Byte) : Bool := decide (b ≤ a)

/-- `8xy6`: bit 0 (42_alu.md R109). -/
def lsbOf (a : Byte) : Bool := a.getLsbD 0

/-- `8xyE`: bit 7 (42_alu.md R111). -/
def msbOf (a : Byte) : Bool := a.getLsbD 7

end Sys2Proof.Machine
end

