-- ==== Sys2Proof/Machine/Operands.lean ====
section
/-! DEFINITION. The operand forms (30_encoding.md R62, 43_index_memory.md R126, 45_keys_timers.md
R141): everything unsigned and zero-extended. -/

namespace Sys2Proof.Machine

open Sys2Proof

/-- `zext_16(nnn)` (30_encoding.md R62). -/
def zextAddr (nnn : Addr12) : Word := nnn.setWidth 16

/-- `zext_16(V[x])`. -/
def zextByte (b : Byte) : Word := b.setWidth 16

/-- The low byte of a timer, `t[7:0]` (45_keys_timers.md R138). -/
def lowByte (t : Word) : Byte := t.extractLsb' 0 8

/-- The one memory operand: "cell number `i` after `I`" (43_index_memory.md R126), not yet reduced. -/
def effAddr (s : State) (i : Nat) : Nat := s.index.toNat + i

/-- The registers `V0` to `Vx`, ascending (30_encoding.md R62). -/
def regsUpTo (x : Reg) : List Reg := (List.finRange 16).filter (fun i => i ≤ x)

/-- The key that a register names: `V[x] mod 16` (45_keys_timers.md R141). -/
def keyOf (b : Byte) : Key := Fin.ofNat 16 b.toNat

/-- Is the key pressed? (10_state.md R21) -/
def keyDown (s : State) (k : Key) : Bool := s.keyState[k.val]

/-- The pressed keys, ascending (45_keys_timers.md R137). -/
def pressedKeys (s : State) : List Key := (List.finRange 16).filter (fun k => keyDown s k)

/-- The key that `Fx0A` loads from the pressed keys `k :: ks`, which ascend: a single one whatever
the parameter, else the lowest or the highest as `KEYWAIT_PICK` says (45_keys_timers.md R137). -/
def pickKey (policy : Config.KeywaitPick) (k : Key) (ks : List Key) : Key :=
  match ks with
  | [] => k
  | k' :: ks' =>
    match policy with
    | .lowest => k
    | .highest => (k' :: ks').getLast (by simp)

/-- A register number as the byte that is loaded (45_keys_timers.md R137). -/
def byteOfKey (k : Key) : Byte := BitVec.ofNat 8 k.val

/-- The address of the font glyph: `zext_16(V[x]) * 5`, not masked (43_index_memory.md R122). -/
def glyphAddr (b : Byte) : Word := zextByte b * 5

/-- Hundreds digit (43_index_memory.md R123). -/
def bcdHundreds (b : Byte) : Byte := BitVec.ofNat 8 (b.toNat / 100)

/-- Tens digit (43_index_memory.md R123). -/
def bcdTens (b : Byte) : Byte := BitVec.ofNat 8 (b.toNat / 10 % 10)

/-- Ones digit (43_index_memory.md R123). -/
def bcdOnes (b : Byte) : Byte := BitVec.ofNat 8 (b.toNat % 10)

/-- Bit `k` of a sprite row from the left: `row[7 - k]` (44_display.md R131, R132). -/
def spriteBit (row : Byte) (k : Nat) : Bool := row.getLsbD (7 - k)

/-- The pixel that bit `k` of row `r` of a sprite at (`cx`, `cy`) falls on, wrapping on both axes
(44_display.md R131, R132). -/
def spritePixel (cx cy : Byte) (r k : Nat) : Nat :=
  pixelIndex ((cx.toNat + k) % Config.fbWidth) ((cy.toNat + r) % Config.fbHeight)

end Sys2Proof.Machine
end

