-- ==== Sys2Proof/Machine/Alu.lean ====
section
/-! DEFINITION. Register load, arithmetic, logic, shifts and random (42_alu.md). Assignments run in
the order the rule writes them, each reading the registers as the one before left them (R100). -/

namespace Sys2Proof.Machine

open Sys2Proof

/-- `6xnn` LD_IMM (42_alu.md R101). -/
def execLdImm (x : Reg) (nn : Byte) (s : State) : Host.Outcome State Fault Refusal :=
  .next (advance (setV s x nn))

/-- `7xnn` ADD_IMM (42_alu.md R102): modulo 256, no flag. -/
def execAddImm (x : Reg) (nn : Byte) (s : State) : Host.Outcome State Fault Refusal :=
  .next (advance (setV s x (getV s x + nn)))

/-- `8xy0` LD_REG (42_alu.md R103). -/
def execLdReg (x y : Reg) (s : State) : Host.Outcome State Fault Refusal :=
  .next (advance (setV s x (getV s y)))

/-- `8xy1` OR (42_alu.md R104). -/
def execOr (x y : Reg) (s : State) : Host.Outcome State Fault Refusal :=
  .next (advance (setV s x (getV s x ||| getV s y)))

/-- `8xy2` AND (42_alu.md R105). -/
def execAnd (x y : Reg) (s : State) : Host.Outcome State Fault Refusal :=
  .next (advance (setV s x (getV s x &&& getV s y)))

/-- `8xy3` XOR (42_alu.md R106). -/
def execXor (x y : Reg) (s : State) : Host.Outcome State Fault Refusal :=
  .next (advance (setV s x (getV s x ^^^ getV s y)))

/-- `8xy4` ADD_REG (42_alu.md R107): the sum is computed once; `V[x]` first, then the carry. -/
def execAddReg (x y : Reg) (s : State) : Host.Outcome State Fault Refusal :=
  let a := getV s x
  let b := getV s y
  .next (advance (setFlag (setV s x (a + b)) (carryOf a b)))

/-- `8xy5` SUB (42_alu.md R108): the flag first, then the difference of the registers as it left
them. -/
def execSub (x y : Reg) (s : State) : Host.Outcome State Fault Refusal :=
  let s1 := setFlag s (noBorrow (getV s x) (getV s y))
  .next (advance (setV s1 x (getV s1 x - getV s1 y)))

/-- `8xy6` SHR (42_alu.md R109): the flag from `V[x]`, the shifted value from `V[y]`. -/
def execShr (x y : Reg) (s : State) : Host.Outcome State Fault Refusal :=
  let s1 := setFlag s (lsbOf (getV s x))
  .next (advance (setV s1 x (getV s1 y >>> 1)))

/-- `8xy7` SUBN (42_alu.md R110): the flag first, then the reverse difference. -/
def execSubn (x y : Reg) (s : State) : Host.Outcome State Fault Refusal :=
  let s1 := setFlag s (noBorrow (getV s y) (getV s x))
  .next (advance (setV s1 x (getV s1 y - getV s1 x)))

/-- `8xyE` SHL (42_alu.md R111): the flag from `V[x]`, the shifted value from `V[y]`. -/
def execShl (x y : Reg) (s : State) : Host.Outcome State Fault Refusal :=
  let s1 := setFlag s (msbOf (getV s x))
  .next (advance (setV s1 x (getV s1 y <<< 1)))

/-- `Cxnn` RND (42_alu.md R112): one draw of `rand_in`, ANDed with `nn`. -/
def execRnd (x : Reg) (nn : Byte) (s : State) : Host.Outcome State Fault Refusal :=
  .next (advance (countDraw (setV s x (randByte s &&& nn))))

end Sys2Proof.Machine
end

