-- ==== Sys2Proof/Machine/Display.lean ====
section
/-! DEFINITION. Clear screen and sprite draw (44_display.md). -/

namespace Sys2Proof.Machine

open Sys2Proof

/-- `00E0` CLS (44_display.md R130). -/
def execCls (s : State) : Host.Outcome State Fault Refusal :=
  .next (advance (markDirty (fbClear s)))

/-- A set sprite bit on pixel `i`: a collision when the pixel was 1, then the XOR (R131). -/
def hitPixel (s : State) (i : Nat) : State :=
  let s1 := if fbGet s i then setFlag s true else s
  fbToggle s1 i

/-- Bit `k` of a sprite row: a zero bit leaves its pixel untouched (R131). -/
def drawBit (cx cy : Byte) (r : Nat) (row : Byte) (s : State) (k : Nat) : State :=
  if spriteBit row k then hitPixel s (spritePixel cx cy r k) else s

/-- Row `r` of the sprite: the byte at `base + r`, its eight bits from the left (R131). -/
def drawRow (cx cy : Byte) (base : Nat) (s : State) (r : Nat) : State :=
  let row := memRead s (base + r)
  (List.range 8).foldl (drawBit cx cy r row) s

/-- `Dxyn` DRW (44_display.md R131): position and base sampled first, `VF` cleared, then the rows;
`fb_dirty` is set always. -/
def execDrw (x y : Reg) (n : Fin 16) (s : State) : Host.Outcome State Fault Refusal :=
  let cx := getV s x
  let cy := getV s y
  let base := s.index.toNat
  let s1 := setFlag s false
  let s2 := (List.range n.val).foldl (drawRow cx cy base) s1
  .next (advance (markDirty s2))

end Sys2Proof.Machine
end

