-- ==== Sys2Proof/Machine/Flow.lean ====
section
/-! DEFINITION. Control flow (41_flow.md). In every meaning `s.pc` is `pc0` and `s.currentOpcode`
the fetched word. -/

namespace Sys2Proof.Machine

open Sys2Proof

/-- `00EE` RET (41_flow.md R90): pop, then 2 past the popped address; with nothing to pop, reported
and ignored (60_exceptions.md R154). -/
def execRet (s : State) : Host.Outcome State Fault Refusal :=
  match popPc s with
  | some (a, s1) => .next (jumpTo s1 (a + 2))
  | none => .next (reportAndIgnore .stackUnderflow s)

/-- The effect of a detected self-jump: `halted`, then the diagnostic (60_exceptions.md R152). -/
def selfJump (s : State) : State := raiseDiag .selfJump { s with halted := true }

/-- `1nnn` JP (41_flow.md R91): the jump, with self-jump detection on the full 16-bit `pc0`. -/
def execJp (nnn : Addr12) (s : State) : Host.Outcome State Fault Refusal :=
  let s1 := if zextAddr nnn = s.pc then selfJump s else s
  .next (jumpTo s1 (zextAddr nnn))

/-- `2nnn` CALL (41_flow.md R92): push `pc0` and jump; with the stack full, reported and ignored
(60_exceptions.md R153). -/
def execCall (nnn : Addr12) (s : State) : Host.Outcome State Fault Refusal :=
  match pushPc s with
  | some s1 => .next (jumpTo s1 (zextAddr nnn))
  | none => .next (reportAndIgnore .stackOverflow s)

/-- `Bnnn` JP_V0 (41_flow.md R93): no self-jump detection. -/
def execJpV0 (nnn : Addr12) (s : State) : Host.Outcome State Fault Refusal :=
  .next (jumpTo s (zextByte (getV s 0) + zextAddr nnn))

/-- `3xnn` SE_IMM (41_flow.md R94). -/
def execSeImm (x : Reg) (nn : Byte) (s : State) : Host.Outcome State Fault Refusal :=
  .next (skipIf s (getV s x == nn))

/-- `4xnn` SNE_IMM (41_flow.md R95). -/
def execSneImm (x : Reg) (nn : Byte) (s : State) : Host.Outcome State Fault Refusal :=
  .next (skipIf s (getV s x != nn))

/-- `5xy0` SE_REG (41_flow.md R96): the low nibble is not examined (30_encoding.md R67). -/
def execSeReg (x y : Reg) (_n : BitVec 4) (s : State) : Host.Outcome State Fault Refusal :=
  .next (skipIf s (getV s x == getV s y))

/-- `9xy0` SNE_REG (41_flow.md R97): the low nibble is not examined (30_encoding.md R67). -/
def execSneReg (x y : Reg) (_n : BitVec 4) (s : State) : Host.Outcome State Fault Refusal :=
  .next (skipIf s (getV s x != getV s y))

end Sys2Proof.Machine
end

