-- ==== Sys2Proof/Machine/IndexMemory.lean ====
section
/-! DEFINITION. Index register and memory (43_index_memory.md). `I` is never changed by a store or
a load (R126). -/

namespace Sys2Proof.Machine

open Sys2Proof

/-- `Annn` LD_I (43_index_memory.md R120). -/
def execLdI (nnn : Addr12) (s : State) : Host.Outcome State Fault Refusal :=
  .next (advance (setIndex s (zextAddr nnn)))

/-- `Fx1E` ADD_I (43_index_memory.md R121): modulo 65536, no flag. -/
def execAddI (x : Reg) (s : State) : Host.Outcome State Fault Refusal :=
  .next (advance (setIndex s (s.index + zextByte (getV s x))))

/-- `Fx29` LD_F (43_index_memory.md R122). -/
def execLdF (x : Reg) (s : State) : Host.Outcome State Fault Refusal :=
  .next (advance (setIndex s (glyphAddr (getV s x))))

/-- The three stores of `Fx33`: hundreds, tens, ones at `I`, `I+1`, `I+2`. -/
def storeBcd (s : State) (b : Byte) : State :=
  let s1 := memWrite s (effAddr s 0) (bcdHundreds b)
  let s2 := memWrite s1 (effAddr s 1) (bcdTens b)
  memWrite s2 (effAddr s 2) (bcdOnes b)

/-- `Fx33` LD_B (43_index_memory.md R123). -/
def execLdB (x : Reg) (s : State) : Host.Outcome State Fault Refusal :=
  .next (advance (storeBcd s (getV s x)))

/-- One iteration of `Fx55`. -/
def storeReg (s : State) (i : Reg) : State := memWrite s (effAddr s i.val) (getV s i)

/-- `Fx55` ST_REGS (43_index_memory.md R124). -/
def execStRegs (x : Reg) (s : State) : Host.Outcome State Fault Refusal :=
  .next (advance ((regsUpTo x).foldl storeReg s))

/-- One iteration of `Fx65`. -/
def loadReg (s : State) (i : Reg) : State := setV s i (memRead s (effAddr s i.val))

/-- `Fx65` LD_REGS (43_index_memory.md R125). -/
def execLdRegs (x : Reg) (s : State) : Host.Outcome State Fault Refusal :=
  .next (advance ((regsUpTo x).foldl loadReg s))

end Sys2Proof.Machine
end

