-- ==== Sys2Proof/Machine/KeysTimers.lean ====
section
/-! DEFINITION. Keypad and timers (45_keys_timers.md). -/

namespace Sys2Proof.Machine

open Sys2Proof

/-- `Ex9E` SKP (45_keys_timers.md R135). -/
def execSkp (x : Reg) (s : State) : Host.Outcome State Fault Refusal :=
  .next (skipIf s (keyDown s (keyOf (getV s x))))

/-- `ExA1` SKNP (45_keys_timers.md R136). -/
def execSknp (x : Reg) (s : State) : Host.Outcome State Fault Refusal :=
  .next (skipIf s (!keyDown s (keyOf (getV s x))))

/-- `Fx0A` LD_VX_K (45_keys_timers.md R137): with no key pressed `pc` stays at `pc0`; the wait is a
full step. -/
def execLdVxK (x : Reg) (s : State) : Host.Outcome State Fault Refusal :=
  match pressedKeys s with
  | [] => .next (jumpTo s s.pc)
  | k :: ks => .next (advance (setV s x (byteOfKey (pickKey Config.keywaitPick k ks))))

/-- `Fx07` LD_VX_DT (45_keys_timers.md R138): the value before this step's tick. -/
def execLdVxDt (x : Reg) (s : State) : Host.Outcome State Fault Refusal :=
  .next (advance (setV s x (lowByte s.delayTimer)))

/-- `Fx15` LD_DT_VX (45_keys_timers.md R139). -/
def execLdDtVx (x : Reg) (s : State) : Host.Outcome State Fault Refusal :=
  .next (advance (setDelay s (zextByte (getV s x))))

/-- `Fx18` LD_ST_VX (45_keys_timers.md R140). -/
def execLdStVx (x : Reg) (s : State) : Host.Outcome State Fault Refusal :=
  .next (advance (setSound s (zextByte (getV s x))))

end Sys2Proof.Machine
end

