-- ==== Sys2Proof/Machine/Step.lean ====
section
/-! DEFINITION. The one transition of the machine (40_step.md R80): fetch, decode, execute, tick. -/

namespace Sys2Proof.Machine

open Sys2Proof

/-- The execute phase (40_step.md R82): the decoded instruction's meaning, or a reported no-op when
no pattern matches (R84). -/
def execute (d : Except DecodeReject Instr) (s : State) : Host.Outcome State Fault Refusal :=
  match d with
  | .ok i => exec i s
  | .error _ => .next (unrecognized s)

/-- One step (40_step.md R80). The tick follows every execution (R83). -/
def step (s : State) : Host.Outcome State Fault Refusal :=
  match execute (decode (fetchWord s)) (latchFetch s) with
  | .next t => .next (finishStep t)
  | .fault r => .fault r
  | .refused r => .refused r

/-- `s` with a table row's instruction in the two cells that the next fetch reads: the high byte at
`pc`, the low byte at `pc + 1` (20_memory.md R42). Nothing else is changed (log entry 9). -/
def State.withFetchWord (s : State) (nbits w : Nat) : State :=
  let t := tableWord nbits w
  memWrite (memWrite s s.pc.toNat (t.extractLsb' 8 8)) (s.pc.toNat + 1) (t.extractLsb' 0 8)

end Sys2Proof.Machine
end

