-- ==== Sys2Proof/Machine/Ports.lean ====
section
/-! DEFINITION. The ports of the core (10_state.md R30 to R38) and the boot (70_reset_and_hazards.md
R180 to R184): what the host can do, and what it can see. -/

namespace Sys2Proof.Machine

open Sys2Proof

/-! ### Before the first step: load -/

/-- The `load` port: one byte into memory (10_state.md R32). -/
def loadByte (s : State) (addr : Nat) (b : Byte) : State := memWrite s addr b

/-- Bytes at ascending addresses from `base`, through the `load` port. -/
def loadBytes (base : Nat) : List Byte → State → State
  | [], s => s
  | b :: bs, s => loadBytes (base + 1) bs (loadByte s base b)

/-- The font initializer (70_reset_and_hazards.md R181): `memory[j] <- FONT[j]`. -/
def loadFont (font : Vector Byte Config.fontSize) (s : State) : State :=
  loadBytes Config.fontBase font.toList s

/-- What the loader answers (70_reset_and_hazards.md R182): a state ready for the first step, or the
report of 60_exceptions.md R155 with the length, and no launch. -/
inductive LaunchOutcome where
  | launched (s : State)
  | romTooLarge (length : Nat)   -- LOAD_ROM_TOO_LARGE, code 5
deriving DecidableEq, Repr

/-- The ROM loader (70_reset_and_hazards.md R182): verbatim at 0x200, or refused whole. -/
def loadRom (rom : List Byte) (s : State) : LaunchOutcome :=
  if Config.romMax < rom.length then .romTooLarge rom.length
  else .launched (loadBytes Config.romBase rom s)

/-- Reset, font write, ROM load (70_reset_and_hazards.md R183, R184). -/
def launch (font : Vector Byte Config.fontSize) (rom : List Byte) : LaunchOutcome :=
  loadRom rom (loadFont font State.reset)

/-! ### Between two steps: inputs -/

/-- `keys_in`: all sixteen bits of `key_state` (10_state.md R33). -/
def writeKeys (keys : Vector Bool 16) (s : State) : State := { s with keyState := keys }

/-- `rand_in`: the byte for the coming step (10_state.md R34). -/
def supplyRand (r : Byte) (s : State) : State := { s with randIn := some r }

/-- `fb_dirty_clear` (10_state.md R35). -/
def clearDirty (s : State) : State := { s with fbDirty := false }

/-- `reset`, at any time between steps (10_state.md R31). The count of draws goes on, so that a
free value is not drawn twice (log entry 1). -/
def assertReset (s : State) : State := { State.reset with draws := s.draws }

/-! ### Outputs -/

/-- `fb_out[i]` (10_state.md R35). -/
def fbOut (s : State) (i : Nat) : Bool := fbGet s i

/-- The pixel at column `c` and row `r` (10_state.md R12). -/
def pixelAt (s : State) (c r : Nat) : Bool := fbGet s (pixelIndex c r)

/-- `fb_dirty_out` (10_state.md R35). -/
def fbDirtyOut (s : State) : Bool := s.fbDirty

/-- `sound_active` (10_state.md R36). -/
def soundActive (s : State) : Bool := s.soundTimer != 0

/-- `halted_out` (10_state.md R37). -/
def haltedOut (s : State) : Bool := s.halted

/-- The code of a diagnostic (60_exceptions.md R150). -/
def DiagCode.number : DiagCode → Nat
  | .unrecognizedOpcode => 1
  | .selfJump => 2
  | .stackOverflow => 3
  | .stackUnderflow => 4

/-- `LOAD_ROM_TOO_LARGE`, reported by the loader (60_exceptions.md R155). -/
def loadRomTooLargeCode : Nat := 5

/-- `diag_valid` (10_state.md R37). -/
def diagValid (s : State) : Bool := s.diag.isSome

/-- `diag_code`, when `diag_valid` (10_state.md R37). -/
def diagCode (s : State) : Option Nat := s.diag.map (fun d => d.code.number)

/-- `diag_pc`, when `diag_valid` (10_state.md R37). -/
def diagPc (s : State) : Option Word := s.diag.map (fun d => d.pc)

/-- `diag_opcode`, when `diag_valid` (10_state.md R37). -/
def diagOpcode (s : State) : Option Word := s.diag.map (fun d => d.opcode)

/-! ### The closed list of what the host does to a launched core (10_state.md R38) -/

/-- One move of the host. Reading state and stopping for ever change nothing and need no move. -/
inductive HostMove where
  | keysIn (keys : Vector Bool 16)
  | randIn (r : Byte)
  | fbDirtyClear
  | strobe
  | reset
deriving DecidableEq, Repr

/-- What a move does. -/
def applyMove (m : HostMove) (s : State) : Host.Outcome State Fault Refusal :=
  match m with
  | .keysIn keys => .next (writeKeys keys s)
  | .randIn r => .next (supplyRand r s)
  | .fbDirtyClear => .next (clearDirty s)
  | .strobe => step s
  | .reset => .next (assertReset s)

/-- A session: the host's moves one after another (10_state.md R38). -/
def session : List HostMove → State → Host.Outcome State Fault Refusal
  | [], s => .next s
  | m :: ms, s =>
    match applyMove m s with
    | .next t => session ms t
    | .fault r => .fault r
    | .refused r => .refused r

end Sys2Proof.Machine
end

