-- ==== Sys2Proof/Safety.lean ====
section
/-! DEFINITION. The terms in which claims are stated: what completing means, what a component of the
state is and what an instruction may write (10_state.md R28), the invariant of every reachable state
(R27), and what a clean run is (60_exceptions.md R161). -/

namespace Sys2Proof.Safety

open Sys2Proof Sys2Proof.Machine

/-! ### Completion -/

/-- The instruction answers a next state, and that state has the property. -/
def completes (i : Instr) (s : State) (post : State → Prop) : Prop :=
  ∃ t, exec i s = .next t ∧ post t

/-- `n` steps with no host move between them lead from one state to another. -/
def runsTo : Nat → State → State → Prop
  | 0, s, t => s = t
  | n + 1, s, t => ∃ u, step s = .next u ∧ runsTo n u t

/-- A run has ended when `halted` is true after a step (70_reset_and_hazards.md R192). -/
def runEnded (s : State) : Bool := s.halted

/-- No diagnostic of code 1, 3 or 4 is recorded (60_exceptions.md R161). -/
def cleanLog (s : State) : Prop := ∀ d ∈ s.diagLog, d.code = DiagCode.selfJump

/-! ### Components of the state, and the access summary -/

/-- The pieces of state an instruction can change, `pc` apart. A cell and a pixel are components of
their own. -/
inductive Component where
  | reg (r : Reg)
  | index
  | cell (a : Nat)
  | stackEntry (i : Fin 16)
  | stackPointer
  | pixel (p : Nat)
  | fbDirty
  | delayTimer
  | soundTimer
  | keyState
  | currentOpcode
  | halted
  | diagnostics
  | randIn
  | draws
deriving DecidableEq, Repr

/-- The two states agree on the component. A cell is compared by the model's read of one byte. -/
def sameAt (c : Component) (s t : State) : Prop :=
  match c with
  | .reg r => getV t r = getV s r
  | .index => t.index = s.index
  | .cell a => memRead t a = memRead s a
  | .stackEntry i => t.stack[i.val] = s.stack[i.val]
  | .stackPointer => t.sp = s.sp
  | .pixel p => fbGet t p = fbGet s p
  | .fbDirty => t.fbDirty = s.fbDirty
  | .delayTimer => t.delayTimer = s.delayTimer
  | .soundTimer => t.soundTimer = s.soundTimer
  | .keyState => t.keyState = s.keyState
  | .currentOpcode => t.currentOpcode = s.currentOpcode
  | .halted => t.halted = s.halted
  | .diagnostics => t.diag = s.diag ∧ t.diagLog = s.diagLog
  | .randIn => t.randIn = s.randIn
  | .draws => t.draws = s.draws

/-- Bit `k` of row `r` of the sprite at `I` is set and falls on pixel `p` when drawn at
(`V[x]`, `V[y]`): columns modulo 64, rows modulo 32 (44_display.md R131). -/
def spriteSets (s : State) (x y : Reg) (p r k : Nat) : Prop :=
  (memRead s (s.index.toNat + r)).getLsbD (7 - k) = true ∧
    p = ((getV s y).toNat + r) % 32 * 64 + ((getV s x).toNat + k) % 64

/-- The `n`-row sprite has a set bit on pixel `p`. -/
def spriteCovers (s : State) (x y : Reg) (n : Fin 16) (p : Nat) : Prop :=
  ∃ r < n.val, ∃ k < 8, spriteSets s x y p r k

/-- What an instruction may write, started in state `s`: its row of the access summary
(10_state.md R28), with the conditions its rule gives for the rows marked "(W)" and with the stored
cells and the drawn pixels computed. `pc` is apart; the model's own `draws` is advanced by a draw. -/
def mayWrite (i : Instr) (s : State) (c : Component) : Prop :=
  match i with
  | .cls =>
    match c with
    | .pixel _ | .fbDirty => True
    | _ => False
  | .ret =>
    match c with
    | .stackPointer => 0 < s.sp.val
    | .diagnostics => s.sp.val = 0
    | _ => False
  | .jp nnn =>
    match c with
    | .halted | .diagnostics => zextAddr nnn = s.pc
    | _ => False
  | .call _ =>
    match c with
    | .stackEntry e => e.val = s.sp.val
    | .stackPointer => s.sp.val < 16
    | .diagnostics => s.sp.val = 16
    | _ => False
  | .jpV0 _ | .seImm _ _ | .sneImm _ _ | .seReg _ _ _ | .sneReg _ _ _ | .skp _ | .sknp _ => False
  | .ldImm x _ | .addImm x _ | .ldReg x _ | .or x _ | .and x _ | .xor x _ | .ldVxDt x =>
    match c with
    | .reg r => r = x
    | _ => False
  | .addReg x _ | .sub x _ | .shr x _ | .subn x _ | .shl x _ =>
    match c with
    | .reg r => r = x ∨ r = flagReg
    | _ => False
  | .rnd x _ =>
    match c with
    | .reg r => r = x
    | .draws => True
    | _ => False
  | .ldI _ | .addI _ | .ldF _ =>
    match c with
    | .index => True
    | _ => False
  | .ldB _ =>
    match c with
    | .cell a => ∃ k < 3, cellOf a = cellOf (effAddr s k)
    | _ => False
  | .stRegs x =>
    match c with
    | .cell a => ∃ k ≤ x.val, cellOf a = cellOf (effAddr s k)
    | _ => False
  | .ldRegs x =>
    match c with
    | .reg r => r ≤ x
    | _ => False
  | .drw x y n =>
    match c with
    | .reg r => r = flagReg
    | .pixel p => spriteCovers s x y n p
    | .fbDirty => True
    | _ => False
  | .ldVxK x =>
    match c with
    | .reg r => r = x ∧ ∃ k, keyDown s k = true
    | _ => False
  | .ldDtVx _ =>
    match c with
    | .delayTimer => True
    | _ => False
  | .ldStVx _ =>
    match c with
    | .soundTimer => True
    | _ => False

/-- The frame of an instruction: what it may not write is as before. -/
def framed (i : Instr) : Prop :=
  ∀ s t c, exec i s = .next t → ¬ mayWrite i s c → sameAt c s t

/-! ### The invariant of reachable states -/

/-- A recorded diagnostic names a cause that its word and address show (60_exceptions.md R150, columns
"raised by" and "condition"). -/
def genuine (d : Diag) : Prop :=
  match d.code with
  | .unrecognizedOpcode => ∃ e, decode d.opcode = .error e
  | .selfJump => ∃ nnn, decode d.opcode = .ok (.jp nnn) ∧ zextAddr nnn = d.pc
  | .stackOverflow => ∃ nnn, decode d.opcode = .ok (.call nnn)
  | .stackUnderflow => decode d.opcode = .ok .ret

/-- What holds in every reachable state. The ranges of `sp` are its type's own (10_state.md R18). -/
structure StateInv (s : State) : Prop where
  /-- The memory list keeps its canonical form. -/
  memory : s.memory.wf
  /-- `delay_timer ≤ 255` (10_state.md R19, R27). -/
  delay : s.delayTimer.toNat ≤ 255
  /-- `sound_timer ≤ 255` (10_state.md R20, R27). -/
  sound : s.soundTimer.toNat ≤ 255
  /-- `halted` is set exactly when a self-jump has been reported (10_state.md R23, 60_exceptions.md R152). -/
  haltedReported : s.halted = true ↔ ∃ d ∈ s.diagLog, d.code = DiagCode.selfJump
  /-- Every recorded diagnostic names its true cause (60_exceptions.md R150). -/
  logGenuine : ∀ d ∈ s.diagLog, genuine d
  /-- The diagnostic on the outputs is the last one recorded (60_exceptions.md R150, R161). -/
  diagRecorded : ∀ d, s.diag = some d → s.diagLog.getLast? = some d

end Sys2Proof.Safety
end

