-- ==== Sys2Proof/WellFormed.lean ====
section
/-! DEFINITION. Which instructions an assembler may emit (30_encoding.md R67, R71). -/

namespace Sys2Proof

/-- An instruction is well-formed when its encoding is the canonical one. Register numbers and
immediates fit their fields by their types (R62, R71); the one field left to check is the low
nibble of `5xy0` and `9xy0`: "An assembler emits `n = 0`" (R67). A word with another nibble still
decodes and executes; no meaning reads this check. -/
def Instr.wellFormed : Instr → Bool
  | .seReg _ _ n => n == 0
  | .sneReg _ _ n => n == 0
  | .cls | .ret | .jp _ | .call _ | .seImm _ _ | .sneImm _ _ | .ldImm _ _ | .addImm _ _ => true
  | .ldReg _ _ | .or _ _ | .and _ _ | .xor _ _ | .addReg _ _ => true
  | .sub _ _ | .shr _ _ | .subn _ _ | .shl _ _ => true
  | .ldI _ | .jpV0 _ | .rnd _ _ | .drw _ _ _ | .skp _ | .sknp _ => true
  | .ldVxDt _ | .ldVxK _ | .ldDtVx _ | .ldStVx _ | .addI _ | .ldF _ => true
  | .ldB _ | .stRegs _ | .ldRegs _ => true

end Sys2Proof
end

