-- ==== Sys2Proof/Certificates/Slice0/Obligations.lean ====
section
/-! DEFINITION. The statements for the provers. Values are stated in the arithmetic of the rules, on
natural numbers. Where a clause rests on a decision the spec marks as its own (92_eei_decisions.md
D<n>) or on a log entry of the model, the docstring names it. -/

open Sys2Proof Sys2Proof.Machine Sys2Proof.Safety

/-! ### Reset and boot -/

/-- 10_state.md R26: every element of R10 after reset. -/
def Obligations.ResetValuesAreAsSpecified : Prop :=
  (∀ a, memRead State.reset a = 0) ∧
  (∀ c r, c < 64 → r < 32 → pixelAt State.reset c r = false) ∧
  (∀ x : Reg, getV State.reset x = 0) ∧
  State.reset.pc.toNat = 0x0200 ∧
  State.reset.index.toNat = 0 ∧
  (∀ i : Fin 16, State.reset.stack[i.val] = 0) ∧
  State.reset.sp.val = 0 ∧
  State.reset.delayTimer.toNat = 0 ∧
  State.reset.soundTimer.toNat = 0 ∧
  (∀ k : Key, keyDown State.reset k = false) ∧
  State.reset.currentOpcode = 0 ∧
  State.reset.halted = false ∧
  State.reset.fbDirty = false

/-- 70_reset_and_hazards.md R183: the launch state. Every ROM of at most 3584 bytes is launched; the
font, the ROM and zeros are in memory, and everything else is as at reset. That the memory list is
canonical is no clause of the rule but the model's own representation (log entry 12). -/
def Obligations.LaunchStateHoldsFontAndRom : Prop :=
  ∀ (font : Vector Byte 80) (rom : List Byte), rom.length ≤ 3584 →
    ∃ s, launch font rom = .launched s ∧
      (∀ a, (h : a < 80) → memRead s a = font[a]) ∧
      (∀ j, (h : j < rom.length) → memRead s (0x200 + j) = rom[j]) ∧
      (∀ a, 80 ≤ a → a < 0x200 → memRead s a = 0) ∧
      (∀ a, 0x200 + rom.length ≤ a → a < 4096 → memRead s a = 0) ∧
      s.memory.wf ∧
      { s with memory := [] } = State.reset

/-- 70_reset_and_hazards.md R182 and 60_exceptions.md R155, resting on 92_eei_decisions.md D17: the
core is launched exactly when the ROM has at most 3584 bytes, else its length is reported. -/
def Obligations.RomIsLaunchedExactlyWhenItFits : Prop :=
  ∀ (font : Vector Byte 80) (rom : List Byte),
    ((∃ s, launch font rom = .launched s) ↔ rom.length ≤ 4096 - 0x200) ∧
    (launch font rom = .romTooLarge rom.length ↔ 4096 - 0x200 < rom.length)

/-! ### Encoding -/

/-- Words written out from the patterns of 30_encoding.md R64, one or more of each family, decode to
the instructions they stand for. -/
def Obligations.HandWrittenWordsDecode : Prop :=
  decode 0x00E0 = .ok .cls ∧
  decode 0x00EE = .ok .ret ∧
  decode 0x1ABC = .ok (.jp 0xABC) ∧
  decode 0x2210 = .ok (.call 0x210) ∧
  decode 0xB300 = .ok (.jpV0 0x300) ∧
  decode 0x332A = .ok (.seImm 3 0x2A) ∧
  decode 0x432B = .ok (.sneImm 3 0x2B) ∧
  decode 0x5120 = .ok (.seReg 1 2 0) ∧
  decode 0x9120 = .ok (.sneReg 1 2 0) ∧
  decode 0x6A03 = .ok (.ldImm 0xA 0x03) ∧
  decode 0x8124 = .ok (.addReg 1 2) ∧
  decode 0x812E = .ok (.shl 1 2) ∧
  decode 0xCD0F = .ok (.rnd 0xD 0x0F) ∧
  decode 0xA300 = .ok (.ldI 0x300) ∧
  decode 0xF265 = .ok (.ldRegs 2) ∧
  decode 0xD01F = .ok (.drw 0 1 0xF) ∧
  decode 0xE39E = .ok (.skp 3) ∧
  decode 0xF30A = .ok (.ldVxK 3) ∧
  decode 0xFA15 = .ok (.ldDtVx 0xA)

/-- Decoding an encoded instruction gives it back, with every operand at every value
(30_encoding.md R60 to R64). -/
def Obligations.DecodeOfEncodeIsTheInstruction : Prop :=
  ∀ i : Instr, decode (encode i) = .ok i

/-- A recognized word is the encoding of the instruction it decodes to: no bit is dropped
(30_encoding.md R60 to R64). The nibble that R67 leaves unexamined is kept, a choice of the model's
syntax (log entry 10). -/
def Obligations.EncodeOfDecodedWordIsTheWord : Prop :=
  ∀ (w : Word) (i : Instr), decode w = .ok i → encode i = w

/-- 30_encoding.md R64: a word is the instruction of a row exactly when `w & mask == match`. The rows
of a family 0 word and of families 5 and 9 rest on 92_eei_decisions.md D7 and D8. -/
def Obligations.OpcodeMapSelectsTheInstruction : Prop :=
  ∀ (w : Word) (i : Instr),
    (decode w = .ok i → w &&& i.mask = i.pattern) ∧
    (w &&& i.mask = i.pattern →
      ∃ j, decode w = .ok j ∧ j.mask = i.mask ∧ j.pattern = i.pattern)

/-- The words of the table of 30_encoding.md R68 and no others are unrecognized (family 0 by
92_eei_decisions.md D7). -/
def Obligations.UnrecognizedWordsAreExactlyTheTable : Prop :=
  ∀ w : Word,
    (∃ e, decode w = .error e) ↔
      (w.toNat / 0x1000 = 0x0 ∧ w.toNat ≠ 0x00E0 ∧ w.toNat ≠ 0x00EE) ∨
      (w.toNat / 0x1000 = 0x8 ∧ w.toNat % 16 ∈ [0x8, 0x9, 0xA, 0xB, 0xC, 0xD, 0xF]) ∨
      (w.toNat / 0x1000 = 0xE ∧ w.toNat % 256 ∉ [0x9E, 0xA1]) ∨
      (w.toNat / 0x1000 = 0xF ∧
        w.toNat % 256 ∉ [0x07, 0x0A, 0x15, 0x18, 0x1E, 0x29, 0x33, 0x55, 0x65])

/-! ### The step -/

/-- 20_memory.md R42 with R41 (92_eei_decisions.md D2): the fetched word is the cell at `pc` times 256
plus the next cell, each address modulo 4096. -/
def Obligations.FetchIsBigEndianWithWrap : Prop :=
  ∀ s : State, (fetchWord s).toNat =
    (memRead s (s.pc.toNat % 4096)).toNat * 256 + (memRead s ((s.pc.toNat + 1) % 4096)).toNat

/-- 40_step.md R80: when the two cells at `pc` decode to an instruction, the step is that
instruction's meaning in the state whose `current_opcode` is the fetched word and whose diagnostic
outputs are cleared (92_eei_decisions.md D6, log entry 7); then both timers tick (D28), and the byte on
`rand_in` is no longer known (log entry 1). -/
def Obligations.StepRunsTheDecodedInstruction : Prop :=
  ∀ (s : State) (i : Instr), decode (fetchWord s) = .ok i →
    step s = match exec i { s with currentOpcode := fetchWord s, diag := none } with
      | .next t => .next { t with
          delayTimer := BitVec.ofNat 16 (t.delayTimer.toNat - 1)
          soundTimer := BitVec.ofNat 16 (t.soundTimer.toNat - 1)
          randIn := none }
      | .fault r => .fault r
      | .refused r => .refused r

/-- 40_step.md R85: every step, from every state, answers the next state, with zero or one
diagnostic. The sticky log (60_exceptions.md R161, 92_eei_decisions.md D27, log entry 7) grows by that
diagnostic, whose form is D6. -/
def Obligations.StepAlwaysCompletesWithAtMostOneDiagnostic : Prop :=
  ∀ s : State, ∃ t, step s = .next t ∧
    ((t.diag = none ∧ t.diagLog = s.diagLog) ∨
      ∃ d, t.diag = some d ∧ t.diagLog = s.diagLog ++ [d])

/-- 40_step.md R84: an unrecognized word is a reported no-op: `pc` advances by 2, the diagnostic
carries `pc0` and the word, the timers tick and `current_opcode` is the word; carries `pc0` and the word, the timers tick and `current_opcode` is the word; nothing else changes.
The wrap of `pc` at 65536 is 92_eei_decisions.md D3, the diagnostic outputs are D6, and the sticky log
is D27 (60_exceptions.md R161), held as log entry 7, the model's choice, says. -/
def Obligations.UnrecognizedWordIsAReportedNoOp : Prop :=
  ∀ s : State, (∃ e, decode (fetchWord s) = .error e) →
    ∃ t, step s = .next t ∧
      t.pc.toNat = (s.pc.toNat + 2) % 65536 ∧
      t.diag = some ⟨.unrecognizedOpcode, s.pc, fetchWord s⟩ ∧
      t.diagLog = s.diagLog ++ [⟨.unrecognizedOpcode, s.pc, fetchWord s⟩] ∧
      t.currentOpcode = fetchWord s ∧
      t.delayTimer.toNat = s.delayTimer.toNat - 1 ∧
      t.soundTimer.toNat = s.soundTimer.toNat - 1 ∧
      (∀ x : Reg, getV t x = getV s x) ∧
      (∀ a, memRead t a = memRead s a) ∧
      (∀ p, fbGet t p = fbGet s p) ∧
      t.index = s.index ∧ t.stack = s.stack ∧ t.sp = s.sp ∧ t.keyState = s.keyState ∧
      t.halted = s.halted ∧ t.fbDirty = s.fbDirty ∧ t.draws = s.draws

/-- 60_exceptions.md R150 to R154 and R157 (the codes are 92_eei_decisions.md D6, the conditions on
`sp` D4 and D5): which diagnostic a step raises, with `pc0` and the word. -/
def Obligations.DiagnosticsAreRaisedExactlyByTheirCauses : Prop :=
  ∀ s t : State, step s = .next t → ∀ d : Diag,
    (t.diag = some d ↔
      d.pc = s.pc ∧ d.opcode = fetchWord s ∧
      match d.code with
      | .unrecognizedOpcode => ∃ e, decode (fetchWord s) = .error e
      | .selfJump => ∃ nnn, decode (fetchWord s) = .ok (.jp nnn) ∧ nnn.toNat = s.pc.toNat
      | .stackOverflow => (∃ nnn, decode (fetchWord s) = .ok (.call nnn)) ∧ s.sp.val = 16
      | .stackUnderflow => decode (fetchWord s) = .ok .ret ∧ s.sp.val = 0)

/-- 40_step.md R83 with 45_keys_timers.md R139, R140 (one tick in every step: 92_eei_decisions.md
D28): after any step each timer is one less than the instruction left it, and never below 0; only
Fx15 and Fx18 write a timer before the tick. -/
def Obligations.EveryStepTicksBothTimers : Prop :=
  ∀ s t : State, step s = .next t →
    t.delayTimer.toNat =
      (match decode (fetchWord s) with
        | .ok (.ldDtVx x) => (getV s x).toNat
        | _ => s.delayTimer.toNat) - 1 ∧
    t.soundTimer.toNat =
      (match decode (fetchWord s) with
        | .ok (.ldStVx x) => (getV s x).toNat
        | _ => s.soundTimer.toNat) - 1

/-- 40_step.md R83: over `n` steps none of which is Fx15 the delay timer goes down by `n` and stops
at 0 (92_eei_decisions.md D28). -/
def Obligations.DelayTimerCountsDownOverAnyRun : Prop :=
  ∀ (n : Nat) (s t : State), runsTo n s t →
    (∀ j < n, ∀ u, runsTo j s u → ∀ x, decode (fetchWord u) ≠ .ok (.ldDtVx x)) →
    t.delayTimer.toNat = s.delayTimer.toNat - n

/-- 40_step.md R87: a step never clears `fb_dirty`, never clears `halted` and never consults it,
never writes `key_state`, and never blocks: a step that does not advance is a step that answered. -/
def Obligations.StepNeverClearsConsultsOrBlocks : Prop :=
  ∀ s : State, ∃ t, step s = .next t ∧
    (s.fbDirty = true → t.fbDirty = true) ∧
    (s.halted = true → t.halted = true) ∧
    t.keyState = s.keyState ∧
    (∀ b, ∃ c, step { s with halted := b } = .next { t with halted := c }) ∧
    (∀ x, decode (fetchWord s) = .ok (.ldVxK x) → (∀ k, keyDown s k = false) → t.pc = s.pc)

/-- 10_state.md R22 (its lifetime is 92_eei_decisions.md D26) and R20: no step reads the
`current_opcode` an earlier step left, and no instruction reads `sound_timer`. -/
def Obligations.CurrentOpcodeAndSoundTimerAreNeverRead : Prop :=
  ∀ (s : State) (w : Word),
    step { s with currentOpcode := w } = step s ∧
    ∀ t, step s = .next t →
      ∃ u, step { s with soundTimer := w } = .next { t with soundTimer := u }

/-- 10_state.md R17, R18: over a step, an entry of the call stack changes only by a 2nnn with a free
entry, which writes `pc0` to `stack[sp]`; the stack pointer moves by at most one, up only by 2nnn
and down only by 00EE. -/
def Obligations.CallStackChangesOnlyByCallAndReturn : Prop :=
  ∀ s t : State, step s = .next t →
    (∀ i : Fin 16, t.stack[i.val] ≠ s.stack[i.val] →
      (∃ nnn, decode (fetchWord s) = .ok (.call nnn)) ∧ i.val = s.sp.val ∧ t.stack[i.val] = s.pc) ∧
    (t.sp ≠ s.sp →
      ((∃ nnn, decode (fetchWord s) = .ok (.call nnn)) ∧ t.sp.val = s.sp.val + 1) ∨
      (decode (fetchWord s) = .ok .ret ∧ t.sp.val + 1 = s.sp.val))

/-! ### Register load, arithmetic, logic, shifts and random (42_alu.md) -/

/-- 42_alu.md R101: "`VF` is written only if `x = F`". The other registers are in ArithmeticFrame. -/
def Obligations.LoadImmediateWritesTheByte : Prop :=
  ∀ (x : Reg) (nn : Byte) (s : State),
    decode (0x6#4 ++ (Reg.toField x ++ nn)) = .ok (.ldImm x nn) ∧
    completes (.ldImm x nn) s fun t =>
      getV t x = nn ∧ (x ≠ 15 → getV t 15 = getV s 15) ∧
      t.diag = s.diag ∧ t.diagLog = s.diagLog

/-- 42_alu.md R102: addition modulo 256; `VF` is not a flag here. That nothing unlisted is written is
92_eei_decisions.md D23. -/
def Obligations.AddImmediateWrapsWithoutFlag : Prop :=
  ∀ (x : Reg) (nn : Byte) (s : State),
    decode (0x7#4 ++ (Reg.toField x ++ nn)) = .ok (.addImm x nn) ∧
    completes (.addImm x nn) s fun t =>
      (getV t x).toNat = ((getV s x).toNat + nn.toNat) % 256 ∧
      (∀ r, r ≠ x → getV t r = getV s r) ∧
      t.diag = s.diag ∧ t.diagLog = s.diagLog

/-- 42_alu.md R103: "Flags: none". The other registers are in ArithmeticFrame. -/
def Obligations.CopyRegisterWritesTheSource : Prop :=
  ∀ (x y : Reg) (s : State),
    decode (0x8#4 ++ (Reg.toField x ++ (Reg.toField y ++ 0x0#4))) = .ok (.ldReg x y) ∧
    completes (.ldReg x y) s fun t =>
      getV t x = getV s y ∧ (x ≠ 15 → getV t 15 = getV s 15) ∧
      t.diag = s.diag ∧ t.diagLog = s.diagLog

/-- 42_alu.md R104, R105, R106: bit by bit; `VF` is not changed unless it is the destination. That
nothing unlisted is written is 92_eei_decisions.md D23. -/
def Obligations.LogicIsBitwiseWithoutFlag : Prop :=
  ∀ (x y : Reg) (s : State),
    (decode (0x8#4 ++ (Reg.toField x ++ (Reg.toField y ++ 0x1#4))) = .ok (.or x y) ∧
      completes (.or x y) s fun t =>
        (∀ k < 8, (getV t x).getLsbD k = ((getV s x).getLsbD k || (getV s y).getLsbD k)) ∧
        (∀ r, r ≠ x → getV t r = getV s r) ∧ t.diag = s.diag ∧ t.diagLog = s.diagLog) ∧
    (decode (0x8#4 ++ (Reg.toField x ++ (Reg.toField y ++ 0x2#4))) = .ok (.and x y) ∧
      completes (.and x y) s fun t =>
        (∀ k < 8, (getV t x).getLsbD k = ((getV s x).getLsbD k && (getV s y).getLsbD k)) ∧
        (∀ r, r ≠ x → getV t r = getV s r) ∧ t.diag = s.diag ∧ t.diagLog = s.diagLog) ∧
    (decode (0x8#4 ++ (Reg.toField x ++ (Reg.toField y ++ 0x3#4))) = .ok (.xor x y) ∧
      completes (.xor x y) s fun t =>
        (∀ k < 8, (getV t x).getLsbD k = ((getV s x).getLsbD k ^^ (getV s y).getLsbD k)) ∧
        (∀ r, r ≠ x → getV t r = getV s r) ∧ t.diag = s.diag ∧ t.diagLog = s.diagLog)

/-- 42_alu.md R107: the sum modulo 256 and the carry; with `x = F` the carry is what stays
(the order of effects, 92_eei_decisions.md D9; that nothing unlisted is written is D23). -/
def Obligations.AddRegisterWritesSumThenCarry : Prop :=
  ∀ (x y : Reg) (s : State),
    decode (0x8#4 ++ (Reg.toField x ++ (Reg.toField y ++ 0x4#4))) = .ok (.addReg x y) ∧
    completes (.addReg x y) s fun t =>
      (x ≠ 15 → (getV t x).toNat = ((getV s x).toNat + (getV s y).toNat) % 256) ∧
      (getV t 15).toNat = (if 255 < (getV s x).toNat + (getV s y).toNat then 1 else 0) ∧
      (∀ r, r ≠ x → r ≠ 15 → getV t r = getV s r) ∧
      t.diag = s.diag ∧ t.diagLog = s.diagLog

/-- 42_alu.md R108 in its cases: `a`, `b` and the flag `f` as there. The cases with `x = F` or
`y = F` rest on the order of effects, 92_eei_decisions.md D9. -/
def Obligations.SubtractWritesFlagThenDifference : Prop :=
  ∀ (x y : Reg) (s : State), completes (.sub x y) s fun t =>
    let a := (getV s x).toNat
    let b := (getV s y).toNat
    let f := if b ≤ a then 1 else 0
    (x ≠ 15 → y ≠ 15 → (getV t x).toNat = (a + 256 - b) % 256 ∧ (getV t 15).toNat = f) ∧
    (x ≠ 15 → y = 15 → (getV t x).toNat = (a + 256 - f) % 256 ∧ (getV t 15).toNat = f) ∧
    (x = 15 → y ≠ 15 → (getV t 15).toNat = (f + 256 - b) % 256) ∧
    (x = 15 → y = 15 → (getV t 15).toNat = 0)

/-- 42_alu.md R110 in its cases. The cases with `x = F` or `y = F` rest on the order of effects,
92_eei_decisions.md D9. -/
def Obligations.ReverseSubtractWritesFlagThenDifference : Prop :=
  ∀ (x y : Reg) (s : State), completes (.subn x y) s fun t =>
    let a := (getV s x).toNat
    let b := (getV s y).toNat
    let f := if a ≤ b then 1 else 0
    (x ≠ 15 → y ≠ 15 → (getV t x).toNat = (b + 256 - a) % 256 ∧ (getV t 15).toNat = f) ∧
    (x ≠ 15 → y = 15 → (getV t x).toNat = (f + 256 - a) % 256 ∧ (getV t 15).toNat = f) ∧
    (x = 15 → y ≠ 15 → (getV t 15).toNat = (b + 256 - f) % 256) ∧
    (x = 15 → y = 15 → (getV t 15).toNat = 0)

/-- 42_alu.md R109 in its cases: the flag is bit 0 of `V[x]`, the value is `V[y]` halved. The cases
with `x = F` or `y = F` rest on the order of effects, 92_eei_decisions.md D9. -/
def Obligations.ShiftRightTakesFlagFromVxAndValueFromVy : Prop :=
  ∀ (x y : Reg) (s : State), completes (.shr x y) s fun t =>
    let a := (getV s x).toNat
    let b := (getV s y).toNat
    (x ≠ 15 → y ≠ 15 → (getV t x).toNat = b / 2 ∧ (getV t 15).toNat = a % 2) ∧
    (x ≠ 15 → y = 15 → (getV t x).toNat = 0 ∧ (getV t 15).toNat = a % 2) ∧
    (x = 15 → y ≠ 15 → (getV t 15).toNat = b / 2) ∧
    (x = 15 → y = 15 → (getV t 15).toNat = 0)

/-- 42_alu.md R111 in its cases: the flag is bit 7 of `V[x]`, the value is `V[y]` doubled modulo 256.
The cases with `x = F` or `y = F` rest on the order of effects, 92_eei_decisions.md D9. -/
def Obligations.ShiftLeftTakesFlagFromVxAndValueFromVy : Prop :=
  ∀ (x y : Reg) (s : State), completes (.shl x y) s fun t =>
    let a := (getV s x).toNat
    let b := (getV s y).toNat
    (x ≠ 15 → y ≠ 15 → (getV t x).toNat = 2 * b % 256 ∧ (getV t 15).toNat = a / 128) ∧
    (x ≠ 15 → y = 15 → (getV t x).toNat = 2 * (a / 128) ∧ (getV t 15).toNat = a / 128) ∧
    (x = 15 → y ≠ 15 → (getV t 15).toNat = 2 * b % 256) ∧
    (x = 15 → y = 15 → (getV t 15).toNat = 2 * (a / 128))

/-- 42_alu.md R112 (92_eei_decisions.md D15): with the byte `r` on `rand_in`, bit `k` of `V[x]` is bit
`k` of `r` and of `nn`; whatever is on the port, no bit outside `nn` is set. One draw is counted
(log entry 1). -/
def Obligations.RandomByteIsMaskedByTheImmediate : Prop :=
  ∀ (x : Reg) (nn : Byte) (s : State),
    (∀ r : Byte, completes (.rnd x nn) (supplyRand r s) fun t =>
      ∀ k < 8, (getV t x).getLsbD k = (r.getLsbD k && nn.getLsbD k)) ∧
    completes (.rnd x nn) s fun t =>
      (∀ k < 8, nn.getLsbD k = false → (getV t x).getLsbD k = false) ∧ t.draws = s.draws + 1

/-! ### Control flow (41_flow.md) -/

/-- 40_step.md R82 (the modulus 65536 is 92_eei_decisions.md D3): every instruction that is no jump,
call, return, skip or key wait ends at `pc0 + 2`. -/
def Obligations.StraightLineInstructionsAdvanceByTwo : Prop :=
  ∀ (i : Instr) (s : State),
    (i.family = .alu ∨ i.family = .indexMemory ∨ i.family = .display ∨
      ∃ x, i = .ldVxDt x ∨ i = .ldDtVx x ∨ i = .ldStVx x) →
    completes i s fun t => t.pc.toNat = (s.pc.toNat + 2) % 65536

/-- 41_flow.md R94 to R97 and R99 (the wrap is 92_eei_decisions.md D3, the unexamined nibble D8): the
register skips. -/
def Obligations.RegisterSkipsAddFourOrTwo : Prop :=
  ∀ (x y : Reg) (nn : Byte) (n : BitVec 4) (s : State),
    (completes (.seImm x nn) s fun t =>
      t.pc.toNat = (s.pc.toNat + if (getV s x).toNat = nn.toNat then 4 else 2) % 65536) ∧
    (completes (.sneImm x nn) s fun t =>
      t.pc.toNat = (s.pc.toNat + if (getV s x).toNat = nn.toNat then 2 else 4) % 65536) ∧
    (completes (.seReg x y n) s fun t =>
      t.pc.toNat = (s.pc.toNat + if (getV s x).toNat = (getV s y).toNat then 4 else 2) % 65536) ∧
    (completes (.sneReg x y n) s fun t =>
      t.pc.toNat = (s.pc.toNat + if (getV s x).toNat = (getV s y).toNat then 2 else 4) % 65536)

/-- 41_flow.md R91: the jump goes to `nnn`; exactly a self-jump sets `halted` and reports, with the
16-bit `pc0`. The form of the diagnostic is 92_eei_decisions.md D6, and the sticky log is D27
(60_exceptions.md R161), held as log entry 7, the model's choice, says. -/
def Obligations.JumpDetectsSelfJump : Prop :=
  ∀ (nnn : Addr12) (s : State), completes (.jp nnn) s fun t =>
    t.pc.toNat = nnn.toNat ∧
    (nnn.toNat = s.pc.toNat →
      t.halted = true ∧ t.diag = some ⟨.selfJump, s.pc, s.currentOpcode⟩ ∧
      t.diagLog = s.diagLog ++ [⟨.selfJump, s.pc, s.currentOpcode⟩]) ∧
    (nnn.toNat ≠ s.pc.toNat →
      t.halted = s.halted ∧ t.diag = s.diag ∧ t.diagLog = s.diagLog)

/-- 41_flow.md R93: the target is `V0 + nnn`, which never wraps, and nothing but `pc` is written: no
self-jump detection. -/
def Obligations.IndexedJumpAddsV0 : Prop :=
  ∀ (nnn : Addr12) (s : State),
    decode (0xB#4 ++ nnn) = .ok (.jpV0 nnn) ∧
    completes (.jpV0 nnn) s fun t =>
      t.pc.toNat = (getV s 0).toNat + nnn.toNat ∧ t = { s with pc := t.pc }

/-- 41_flow.md R92: a call with a free entry pushes `pc0` and jumps. With the stack full it is
reported and ignored (92_eei_decisions.md D4, the wrap D3). There the diagnostic outputs are D6 and the
sticky log D27 (60_exceptions.md R161), held as log entry 7, the model's choice, says. -/
def Obligations.CallPushesPcAndJumps : Prop :=
  ∀ (nnn : Addr12) (s : State),
    (s.sp.val < 16 → completes (.call nnn) s fun t =>
      t.pc.toNat = nnn.toNat ∧ t.sp.val = s.sp.val + 1 ∧
      (∀ i : Fin 16, t.stack[i.val] = if i.val = s.sp.val then s.pc else s.stack[i.val]) ∧
      t.diag = s.diag ∧ t.diagLog = s.diagLog) ∧
    (s.sp.val = 16 → completes (.call nnn) s fun t =>
      t.pc.toNat = (s.pc.toNat + 2) % 65536 ∧ t.sp = s.sp ∧ t.stack = s.stack ∧
      t.diag = some ⟨.stackOverflow, s.pc, s.currentOpcode⟩ ∧
      t.diagLog = s.diagLog ++ [⟨.stackOverflow, s.pc, s.currentOpcode⟩])

/-- 41_flow.md R90: a return with a live entry goes 2 past the address on top of the stack, which
stays in its entry. With the stack empty it is reported and ignored (92_eei_decisions.md D5; the
wraps are D3). There the diagnostic outputs are D6 and the sticky log D27 (60_exceptions.md R161), held
as log entry 7, the model's choice, says. -/
def Obligations.ReturnPopsAndAddsTwo : Prop :=
  ∀ s : State,
    (∀ d : Fin 16, s.sp.val = d.val + 1 → completes .ret s fun t =>
      t.pc.toNat = (s.stack[d.val].toNat + 2) % 65536 ∧ t.sp.val = d.val ∧ t.stack = s.stack ∧
      t.diag = s.diag ∧ t.diagLog = s.diagLog) ∧
    (s.sp.val = 0 → completes .ret s fun t =>
      t.pc.toNat = (s.pc.toNat + 2) % 65536 ∧ t.sp = s.sp ∧ t.stack = s.stack ∧
      t.diag = some ⟨.stackUnderflow, s.pc, s.currentOpcode⟩ ∧
      t.diagLog = s.diagLog ++ [⟨.stackUnderflow, s.pc, s.currentOpcode⟩])

/-- 41_flow.md R98: a call followed, after any steps and host moves (no reset) that never go below
its own depth, by a return at that depth: the return lands on the word after the call and restores
the depth. The wrap of `pc` is 92_eei_decisions.md D3. -/
def Obligations.CallAndReturnPairUp : Prop :=
  ∀ (s t u : State) (nnn : Addr12) (ms : List HostMove),
    decode (fetchWord s) = .ok (.call nnn) → s.sp.val < 16 → step s = .next t →
    HostMove.reset ∉ ms → session ms t = .next u →
    (∀ ms1 ms2 v, ms = ms1 ++ ms2 → session ms1 t = .next v → s.sp.val < v.sp.val) →
    u.sp.val = s.sp.val + 1 → decode (fetchWord u) = .ok .ret →
    ∃ w, step u = .next w ∧ w.pc.toNat = (s.pc.toNat + 2) % 65536 ∧ w.sp = s.sp

/-! ### Index register and memory (43_index_memory.md) -/

/-- 43_index_memory.md R120, R121, R122: the three writes of `I`; no flag, no diagnostic
(that nothing unlisted is written is 92_eei_decisions.md D23; that the whole byte is multiplied, R122
marks as derived). -/
def Obligations.IndexRegisterWrites : Prop :=
  (∀ (nnn : Addr12) (s : State), decode (0xA#4 ++ nnn) = .ok (.ldI nnn) ∧
    completes (.ldI nnn) s fun t =>
      t.index.toNat = nnn.toNat ∧ (∀ r, getV t r = getV s r) ∧
      t.diag = s.diag ∧ t.diagLog = s.diagLog) ∧
  (∀ (x : Reg) (s : State), decode (0xF#4 ++ (Reg.toField x ++ 0x1E#8)) = .ok (.addI x) ∧
    completes (.addI x) s fun t =>
      t.index.toNat = (s.index.toNat + (getV s x).toNat) % 65536 ∧ (∀ r, getV t r = getV s r) ∧
      t.diag = s.diag ∧ t.diagLog = s.diagLog) ∧
  (∀ (x : Reg) (s : State), decode (0xF#4 ++ (Reg.toField x ++ 0x29#8)) = .ok (.ldF x) ∧
    completes (.ldF x) s fun t =>
      t.index.toNat = (getV s x).toNat * 5 ∧ (∀ r, getV t r = getV s r) ∧
      t.diag = s.diag ∧ t.diagLog = s.diagLog)

/-- 43_index_memory.md R123: the three digits, each in its cell, addresses modulo 4096 (20_memory.md
R41, 92_eei_decisions.md D2). -/
def Obligations.BcdStoresThreeDigits : Prop :=
  ∀ (x : Reg) (s : State), completes (.ldB x) s fun t =>
    (memRead t ((s.index.toNat + 0) % 4096)).toNat = (getV s x).toNat / 100 ∧
    (memRead t ((s.index.toNat + 1) % 4096)).toNat = (getV s x).toNat / 10 % 10 ∧
    (memRead t ((s.index.toNat + 2) % 4096)).toNat = (getV s x).toNat % 10 ∧
    t.index = s.index

/-- 43_index_memory.md R124 and R126 (that `I` is kept is 92_eei_decisions.md D23, the wrap D2): each
of `V0` to `Vx` is in its cell. -/
def Obligations.StoreRegistersWritesTheRange : Prop :=
  ∀ (x : Reg) (s : State), completes (.stRegs x) s fun t =>
    (∀ i : Reg, i ≤ x → memRead t ((s.index.toNat + i.val) % 4096) = getV s i) ∧
    t.index = s.index

/-- 43_index_memory.md R125 and R126 (that `I` is kept is 92_eei_decisions.md D23, the wrap D2): each
of `V0` to `Vx` holds its cell, the others are unchanged. -/
def Obligations.LoadRegistersReadsTheRange : Prop :=
  ∀ (x : Reg) (s : State), completes (.ldRegs x) s fun t =>
    (∀ i : Reg, getV t i =
      if i ≤ x then memRead s ((s.index.toNat + i.val) % 4096) else getV s i) ∧
    t.index = s.index

/-- 20_memory.md R43 and R52: a two-byte value stored with Fx55 is the instruction word that is
fetched from those cells right after, `V[j]` the high byte. -/
def Obligations.StoredWordIsFetchedAtOnce : Prop :=
  ∀ (x j k : Reg) (s t : State), exec (.stRegs x) s = .next t →
    k.val = j.val + 1 → k ≤ x → (s.pc.toNat + 2) % 4096 = (s.index.toNat + j.val) % 4096 →
    (fetchWord t).toNat = (getV s j).toNat * 256 + (getV s k).toNat

/-! ### Display (44_display.md) -/

/-- 44_display.md R130: every pixel 0 and the dirty flag set, already clear or not
(92_eei_decisions.md D12). -/
def Obligations.ClearScreenZeroesEveryPixel : Prop :=
  ∀ s : State, completes .cls s fun t =>
    (∀ c r, c < 64 → r < 32 → pixelAt t c r = false) ∧ t.fbDirty = true ∧
    (∀ x, getV t x = getV s x)

/-- 44_display.md R131, as one statement about the whole draw: exactly the pixels that the sprite's
set bits fall on are inverted, and `VF` is 1 exactly when one of them was set, else 0. The vertical
modulus is 92_eei_decisions.md D11, the sampled coordinates D10, the dirty flag D12. -/
def Obligations.DrawInvertsCoveredPixelsAndReportsCollision : Prop :=
  ∀ (x y : Reg) (n : Fin 16) (s : State), completes (.drw x y n) s fun t =>
    (∀ p, (spriteCovers s x y n p → fbGet t p = !fbGet s p) ∧
      (¬ spriteCovers s x y n p → fbGet t p = fbGet s p)) ∧
    ((∃ p, spriteCovers s x y n p ∧ fbGet s p = true) → getV t 15 = 1) ∧
    ((∀ p, spriteCovers s x y n p → fbGet s p = false) → getV t 15 = 0) ∧
    t.fbDirty = true

/-- 44_display.md R131, last corner case: drawing the same sprite twice at the same place restores
the framebuffer. By the rule's pseudocode the second draw reports a collision exactly when a covered
pixel was 0 before the first (so, on a clear screen, when the sprite has a set bit; the corner case
says so without the condition, log entry 11). `VF` is no coordinate, since the first draw writes it. -/
def Obligations.DrawingTwiceRestoresTheScreen : Prop :=
  ∀ (x y : Reg) (n : Fin 16) (s t u : State), x ≠ 15 → y ≠ 15 →
    exec (.drw x y n) s = .next t → exec (.drw x y n) t = .next u →
    (∀ p, fbGet u p = fbGet s p) ∧
    (getV u 15 = 1 ↔ ∃ p, spriteCovers s x y n p ∧ fbGet s p = false)

/-- 44_display.md R133: no instruction but CLS and DRW reads or writes the framebuffer: the step of
any other word leaves it, and does the same whatever it holds. -/
def Obligations.OnlyDisplayInstructionsTouchTheFramebuffer : Prop :=
  ∀ (s t : State), step s = .next t →
    (∀ i, decode (fetchWord s) = .ok i → i.family ≠ .display) →
    t.fb = s.fb ∧ t.fbDirty = s.fbDirty ∧
    ∀ f, step { s with fb := f } = .next { t with fb := f }

/-! ### Keys and timers (45_keys_timers.md) -/

/-- 45_keys_timers.md R135, R136 with R141: the key named by `V[x] mod 16` (92_eei_decisions.md D13;
the wrap is D3). -/
def Obligations.KeySkipsTestTheNamedKey : Prop :=
  ∀ (x : Reg) (k : Key) (s : State), k.val = (getV s x).toNat % 16 →
    (completes (.skp x) s fun t =>
      t.pc.toNat = (s.pc.toNat + if keyDown s k = true then 4 else 2) % 65536) ∧
    (completes (.sknp x) s fun t =>
      t.pc.toNat = (s.pc.toNat + if keyDown s k = true then 2 else 4) % 65536)

/-- 45_keys_timers.md R137: with no key down the instruction waits at `pc0` and changes nothing; else
`V[x]` is the index of a pressed key, the lowest or the highest as `KEYWAIT_PICK` says
(92_eei_decisions.md D14, log entry 2), and `pc` advances by 2 (the wrap is D3). -/
def Obligations.KeyWaitLoadsAPressedKey : Prop :=
  ∀ (x : Reg) (s : State), completes (.ldVxK x) s fun t =>
    ((∀ k, keyDown s k = false) → t = s) ∧
    ((∃ k, keyDown s k = true) →
      t.pc.toNat = (s.pc.toNat + 2) % 65536 ∧
      ∃ k : Key, keyDown s k = true ∧ (getV t x).toNat = k.val ∧
        (Config.keywaitPick = .lowest → ∀ j, keyDown s j = true → k ≤ j) ∧
        (Config.keywaitPick = .highest → ∀ j, keyDown s j = true → j ≤ k))

/-- 45_keys_timers.md R138, R139, R140 (the wrap of `pc` is 92_eei_decisions.md D3): the reads and
writes of the timers, before the tick. -/
def Obligations.TimerInstructionsMoveTheirBytes : Prop :=
  ∀ (x : Reg) (s : State),
    (completes (.ldVxDt x) s fun t =>
      (getV t x).toNat = s.delayTimer.toNat % 256 ∧ t.delayTimer = s.delayTimer) ∧
    (completes (.ldDtVx x) s fun t =>
      t.delayTimer.toNat = (getV s x).toNat ∧ t.soundTimer = s.soundTimer) ∧
    (completes (.ldStVx x) s fun t =>
      t.soundTimer.toNat = (getV s x).toNat ∧ t.delayTimer = s.delayTimer)

/-! ### Frames: the access summary of 10_state.md R28 (92_eei_decisions.md D23)

`framed i` says: from every state, whatever `mayWrite` does not list for the instruction is as
before; `mayWrite` computes the stored cells with the model's `effAddr`. -/

/-- Control flow: RET `sp`, JP `halted`, CALL `stack[sp]` and `sp`, each with its diagnostic; JP_V0
and the skips nothing. No register, cell, pixel or timer. -/
def Obligations.ControlFlowFrame : Prop :=
  ∀ i : Instr, i.family = .flow → framed i

/-- Register load, arithmetic, logic, shifts and random: `V[x]`; the flag-writing ones also `VF`; RND
also the model's count of draws (log entry 1). -/
def Obligations.ArithmeticFrame : Prop :=
  ∀ i : Instr, i.family = .alu → framed i

/-- Index register and memory: LD_I, ADD_I, LD_F `I`; LD_B the cells `I` to `I+2`; ST_REGS the cells
`I` to `I+x`; LD_REGS `V0` to `Vx`. -/
def Obligations.IndexAndMemoryFrame : Prop :=
  ∀ i : Instr, i.family = .indexMemory → framed i

/-- Display: CLS the pixels and the dirty flag; DRW the covered pixels, `VF` and the dirty flag. -/
def Obligations.DisplayFrame : Prop :=
  ∀ i : Instr, i.family = .display → framed i

/-- Keys and timers: SKP and SKNP nothing; LD_VX_DT `V[x]`; LD_VX_K `V[x]` if a key is down; LD_DT_VX
and LD_ST_VX their timer. -/
def Obligations.KeysAndTimersFrame : Prop :=
  ∀ i : Instr, i.family = .keysTimers → framed i

/-! ### Invariants -/

/-- The invariant holds after reset (10_state.md R26, R27). The empty log and diagnostic outputs there
are the model's choice (log entry 7), the canonical memory list its representation (log entry 12). -/
def Obligations.ResetSatisfiesTheInvariant : Prop := StateInv State.reset

/-- Every step keeps the invariant, from every state that has it (10_state.md R27; the diagnostics and
the sticky log are 92_eei_decisions.md D6 and D27, log entry 7; the canonical memory list is the
model's, log entry 12). -/
def Obligations.EveryStepKeepsTheInvariant : Prop :=
  ∀ s t : State, StateInv s → step s = .next t → StateInv t

/-- Whatever font and ROM are launched and whatever the host then does (10_state.md R38), every move
answers and the invariant holds; without a reset, a halted core stays halted and no recorded
diagnostic is lost (10_state.md R23, R27, 60_exceptions.md R161). That a launch and a reset start with
empty diagnostic outputs and an empty log is the model's choice (log entry 7), the canonical memory list
is its representation (log entry 12); the form of a diagnostic is 92_eei_decisions.md D6, the sticky log
D27, a reset between steps D30. -/
def Obligations.EverySessionKeepsTheInvariant : Prop :=
  ∀ (font : Vector Byte 80) (rom : List Byte) (ms ms' : List HostMove) (s : State),
    launch font rom = .launched s →
    ∃ t u, session ms s = .next t ∧ session (ms ++ ms') s = .next u ∧ StateInv t ∧ StateInv u ∧
      (HostMove.reset ∉ ms' →
        (t.halted = true → u.halted = true) ∧ ∃ l, u.diagLog = t.diagLog ++ l)
end

