-- ==== Sys2Proof/Laws/Decode.lean ====
section
/-! SUPPORT. The fields of encoded words: what each format puts in a word comes out again
(30_encoding.md R60, R61). -/

namespace Sys2Proof

/-- The high part of a concatenation. -/
theorem extractLsb'_append_high {v w : Nat} (a : BitVec v) (b : BitVec w) :
    (a ++ b).extractLsb' w v = a := by
  rw [BitVec.extractLsb'_append_eq_of_le (Nat.le_refl w)]
  simp

/-- The low part of a concatenation. -/
theorem extractLsb'_append_low {v w : Nat} (a : BitVec v) (b : BitVec w) :
    (a ++ b).extractLsb' 0 w = b := by
  rw [BitVec.extractLsb'_append_eq_of_add_le (by omega)]
  simp

@[simp] theorem Reg.ofField_toField (r : Reg) : Reg.ofField (Reg.toField r) = r := by
  apply Fin.ext
  show (BitVec.ofNat 4 r.val).toNat = r.val
  simp

@[simp] theorem Reg.toField_ofField (b : BitVec 4) : Reg.toField (Reg.ofField b) = b := by
  apply BitVec.eq_of_toNat_eq
  have := b.isLt
  simp [Reg.toField, Reg.ofField]

section
variable (fam n : BitVec 4) (x y : Reg) (nn : Byte) (nnn : Addr12)

@[simp] theorem fieldFamily_encodeNNN : fieldFamily (encodeNNN fam nnn) = fam :=
  extractLsb'_append_high fam nnn

@[simp] theorem fieldNNN_encodeNNN : fieldNNN (encodeNNN fam nnn) = nnn :=
  extractLsb'_append_low fam nnn

@[simp] theorem fieldFamily_encodeXNN : fieldFamily (encodeXNN fam x nn) = fam :=
  extractLsb'_append_high fam (Reg.toField x ++ nn)

@[simp] theorem fieldX_encodeXNN : fieldX (encodeXNN fam x nn) = x := by
  have h : (encodeXNN fam x nn).extractLsb' 8 4 = (Reg.toField x ++ nn).extractLsb' 8 4 :=
    BitVec.extractLsb'_append_eq_of_add_le (by decide)
  rw [fieldX, h, extractLsb'_append_high, Reg.ofField_toField]

@[simp] theorem fieldNN_encodeXNN : fieldNN (encodeXNN fam x nn) = nn := by
  have h : (encodeXNN fam x nn).extractLsb' 0 8 = (Reg.toField x ++ nn).extractLsb' 0 8 :=
    BitVec.extractLsb'_append_eq_of_add_le (by decide)
  rw [fieldNN, h, extractLsb'_append_low]

@[simp] theorem fieldFamily_encodeXYN : fieldFamily (encodeXYN fam x y n) = fam :=
  extractLsb'_append_high fam (Reg.toField x ++ (Reg.toField y ++ n))

@[simp] theorem fieldX_encodeXYN : fieldX (encodeXYN fam x y n) = x :=
  fieldX_encodeXNN fam x (Reg.toField y ++ n)

@[simp] theorem fieldY_encodeXYN : fieldY (encodeXYN fam x y n) = y := by
  have h : (encodeXYN fam x y n).extractLsb' 4 4 =
      (Reg.toField x ++ (Reg.toField y ++ n)).extractLsb' 4 4 :=
    BitVec.extractLsb'_append_eq_of_add_le (by decide)
  rw [fieldY, h, BitVec.extractLsb'_append_eq_of_add_le (by decide), extractLsb'_append_high,
    Reg.ofField_toField]

@[simp] theorem fieldN_encodeXYN : fieldN (encodeXYN fam x y n) = n := by
  have h : (encodeXYN fam x y n).extractLsb' 0 4 =
      (Reg.toField x ++ (Reg.toField y ++ n)).extractLsb' 0 4 :=
    BitVec.extractLsb'_append_eq_of_add_le (by decide)
  rw [fieldN, h, BitVec.extractLsb'_append_eq_of_add_le (by decide), extractLsb'_append_low]

end

/-- A word is the word of its fields, in each format. -/
theorem encodeNNN_fields (w : Word) : encodeNNN (fieldFamily w) (fieldNNN w) = w :=
  (BitVec.extractLsb'_append_extractLsb'_eq_extractLsb' rfl).trans (BitVec.extractLsb'_eq_self)

theorem encodeXNN_fields (w : Word) : encodeXNN (fieldFamily w) (fieldX w) (fieldNN w) = w := by
  have h : (w.extractLsb' 8 4 ++ w.extractLsb' 0 8 : BitVec 12) = w.extractLsb' 0 12 :=
    BitVec.extractLsb'_append_extractLsb'_eq_extractLsb' rfl
  unfold encodeXNN fieldX fieldNN
  rw [Reg.toField_ofField, h]
  exact encodeNNN_fields w

theorem encodeXYN_fields (w : Word) :
    encodeXYN (fieldFamily w) (fieldX w) (fieldY w) (fieldN w) = w := by
  have h : (w.extractLsb' 4 4 ++ w.extractLsb' 0 4 : BitVec 8) = w.extractLsb' 0 8 :=
    BitVec.extractLsb'_append_extractLsb'_eq_extractLsb' rfl
  unfold encodeXYN fieldY fieldN
  rw [Reg.toField_ofField, h]
  exact encodeXNN_fields w

end Sys2Proof
end

