-- ==== Sys2Proof/Laws/State.lean ====
section
/-! SUPPORT. One lemma per field per update: what each primitive operation does to each field of
State, and to the reads of registers, cells, pixels and keys. No later proof unfolds a record update. -/

namespace Sys2Proof.Machine

open Sys2Proof

section
variable (s : State)

/-! ### setV -/

@[simp] theorem setV_memory (x : Reg) (b : Byte) : (setV s x b).memory = s.memory := rfl
@[simp] theorem setV_fb (x : Reg) (b : Byte) : (setV s x b).fb = s.fb := rfl
@[simp] theorem setV_v (x : Reg) (b : Byte) : (setV s x b).v = s.v.set x.val b := rfl
@[simp] theorem setV_pc (x : Reg) (b : Byte) : (setV s x b).pc = s.pc := rfl
@[simp] theorem setV_index (x : Reg) (b : Byte) : (setV s x b).index = s.index := rfl
@[simp] theorem setV_stack (x : Reg) (b : Byte) : (setV s x b).stack = s.stack := rfl
@[simp] theorem setV_sp (x : Reg) (b : Byte) : (setV s x b).sp = s.sp := rfl
@[simp] theorem setV_delayTimer (x : Reg) (b : Byte) : (setV s x b).delayTimer = s.delayTimer := rfl
@[simp] theorem setV_soundTimer (x : Reg) (b : Byte) : (setV s x b).soundTimer = s.soundTimer := rfl
@[simp] theorem setV_keyState (x : Reg) (b : Byte) : (setV s x b).keyState = s.keyState := rfl
@[simp] theorem setV_currentOpcode (x : Reg) (b : Byte) : (setV s x b).currentOpcode = s.currentOpcode := rfl
@[simp] theorem setV_halted (x : Reg) (b : Byte) : (setV s x b).halted = s.halted := rfl
@[simp] theorem setV_fbDirty (x : Reg) (b : Byte) : (setV s x b).fbDirty = s.fbDirty := rfl
@[simp] theorem setV_diag (x : Reg) (b : Byte) : (setV s x b).diag = s.diag := rfl
@[simp] theorem setV_diagLog (x : Reg) (b : Byte) : (setV s x b).diagLog = s.diagLog := rfl
@[simp] theorem setV_randIn (x : Reg) (b : Byte) : (setV s x b).randIn = s.randIn := rfl
@[simp] theorem setV_draws (x : Reg) (b : Byte) : (setV s x b).draws = s.draws := rfl
@[simp] theorem memRead_setV (x : Reg) (b : Byte) (k : Nat) : memRead (setV s x b) k = memRead s k := rfl
@[simp] theorem fbGet_setV (x : Reg) (b : Byte) (p : Nat) : fbGet (setV s x b) p = fbGet s p := rfl
@[simp] theorem keyDown_setV (x : Reg) (b : Byte) (k : Key) : keyDown (setV s x b) k = keyDown s k := rfl
@[simp] theorem effAddr_setV (x : Reg) (b : Byte) (k : Nat) : effAddr (setV s x b) k = effAddr s k := rfl

/-! ### setIndex -/

@[simp] theorem setIndex_memory (a : Word) : (setIndex s a).memory = s.memory := rfl
@[simp] theorem setIndex_fb (a : Word) : (setIndex s a).fb = s.fb := rfl
@[simp] theorem setIndex_v (a : Word) : (setIndex s a).v = s.v := rfl
@[simp] theorem setIndex_pc (a : Word) : (setIndex s a).pc = s.pc := rfl
@[simp] theorem setIndex_index (a : Word) : (setIndex s a).index = a := rfl
@[simp] theorem setIndex_stack (a : Word) : (setIndex s a).stack = s.stack := rfl
@[simp] theorem setIndex_sp (a : Word) : (setIndex s a).sp = s.sp := rfl
@[simp] theorem setIndex_delayTimer (a : Word) : (setIndex s a).delayTimer = s.delayTimer := rfl
@[simp] theorem setIndex_soundTimer (a : Word) : (setIndex s a).soundTimer = s.soundTimer := rfl
@[simp] theorem setIndex_keyState (a : Word) : (setIndex s a).keyState = s.keyState := rfl
@[simp] theorem setIndex_currentOpcode (a : Word) : (setIndex s a).currentOpcode = s.currentOpcode := rfl
@[simp] theorem setIndex_halted (a : Word) : (setIndex s a).halted = s.halted := rfl
@[simp] theorem setIndex_fbDirty (a : Word) : (setIndex s a).fbDirty = s.fbDirty := rfl
@[simp] theorem setIndex_diag (a : Word) : (setIndex s a).diag = s.diag := rfl
@[simp] theorem setIndex_diagLog (a : Word) : (setIndex s a).diagLog = s.diagLog := rfl
@[simp] theorem setIndex_randIn (a : Word) : (setIndex s a).randIn = s.randIn := rfl
@[simp] theorem setIndex_draws (a : Word) : (setIndex s a).draws = s.draws := rfl
@[simp] theorem getV_setIndex (a : Word) (r : Reg) : getV (setIndex s a) r = getV s r := rfl
@[simp] theorem memRead_setIndex (a : Word) (k : Nat) : memRead (setIndex s a) k = memRead s k := rfl
@[simp] theorem fbGet_setIndex (a : Word) (p : Nat) : fbGet (setIndex s a) p = fbGet s p := rfl
@[simp] theorem keyDown_setIndex (a : Word) (k : Key) : keyDown (setIndex s a) k = keyDown s k := rfl

/-! ### setDelay -/

@[simp] theorem setDelay_memory (a : Word) : (setDelay s a).memory = s.memory := rfl
@[simp] theorem setDelay_fb (a : Word) : (setDelay s a).fb = s.fb := rfl
@[simp] theorem setDelay_v (a : Word) : (setDelay s a).v = s.v := rfl
@[simp] theorem setDelay_pc (a : Word) : (setDelay s a).pc = s.pc := rfl
@[simp] theorem setDelay_index (a : Word) : (setDelay s a).index = s.index := rfl
@[simp] theorem setDelay_stack (a : Word) : (setDelay s a).stack = s.stack := rfl
@[simp] theorem setDelay_sp (a : Word) : (setDelay s a).sp = s.sp := rfl
@[simp] theorem setDelay_delayTimer (a : Word) : (setDelay s a).delayTimer = a := rfl
@[simp] theorem setDelay_soundTimer (a : Word) : (setDelay s a).soundTimer = s.soundTimer := rfl
@[simp] theorem setDelay_keyState (a : Word) : (setDelay s a).keyState = s.keyState := rfl
@[simp] theorem setDelay_currentOpcode (a : Word) : (setDelay s a).currentOpcode = s.currentOpcode := rfl
@[simp] theorem setDelay_halted (a : Word) : (setDelay s a).halted = s.halted := rfl
@[simp] theorem setDelay_fbDirty (a : Word) : (setDelay s a).fbDirty = s.fbDirty := rfl
@[simp] theorem setDelay_diag (a : Word) : (setDelay s a).diag = s.diag := rfl
@[simp] theorem setDelay_diagLog (a : Word) : (setDelay s a).diagLog = s.diagLog := rfl
@[simp] theorem setDelay_randIn (a : Word) : (setDelay s a).randIn = s.randIn := rfl
@[simp] theorem setDelay_draws (a : Word) : (setDelay s a).draws = s.draws := rfl
@[simp] theorem getV_setDelay (a : Word) (r : Reg) : getV (setDelay s a) r = getV s r := rfl
@[simp] theorem memRead_setDelay (a : Word) (k : Nat) : memRead (setDelay s a) k = memRead s k := rfl
@[simp] theorem fbGet_setDelay (a : Word) (p : Nat) : fbGet (setDelay s a) p = fbGet s p := rfl
@[simp] theorem keyDown_setDelay (a : Word) (k : Key) : keyDown (setDelay s a) k = keyDown s k := rfl
@[simp] theorem effAddr_setDelay (a : Word) (k : Nat) : effAddr (setDelay s a) k = effAddr s k := rfl

/-! ### setSound -/

@[simp] theorem setSound_memory (a : Word) : (setSound s a).memory = s.memory := rfl
@[simp] theorem setSound_fb (a : Word) : (setSound s a).fb = s.fb := rfl
@[simp] theorem setSound_v (a : Word) : (setSound s a).v = s.v := rfl
@[simp] theorem setSound_pc (a : Word) : (setSound s a).pc = s.pc := rfl
@[simp] theorem setSound_index (a : Word) : (setSound s a).index = s.index := rfl
@[simp] theorem setSound_stack (a : Word) : (setSound s a).stack = s.stack := rfl
@[simp] theorem setSound_sp (a : Word) : (setSound s a).sp = s.sp := rfl
@[simp] theorem setSound_delayTimer (a : Word) : (setSound s a).delayTimer = s.delayTimer := rfl
@[simp] theorem setSound_soundTimer (a : Word) : (setSound s a).soundTimer = a := rfl
@[simp] theorem setSound_keyState (a : Word) : (setSound s a).keyState = s.keyState := rfl
@[simp] theorem setSound_currentOpcode (a : Word) : (setSound s a).currentOpcode = s.currentOpcode := rfl
@[simp] theorem setSound_halted (a : Word) : (setSound s a).halted = s.halted := rfl
@[simp] theorem setSound_fbDirty (a : Word) : (setSound s a).fbDirty = s.fbDirty := rfl
@[simp] theorem setSound_diag (a : Word) : (setSound s a).diag = s.diag := rfl
@[simp] theorem setSound_diagLog (a : Word) : (setSound s a).diagLog = s.diagLog := rfl
@[simp] theorem setSound_randIn (a : Word) : (setSound s a).randIn = s.randIn := rfl
@[simp] theorem setSound_draws (a : Word) : (setSound s a).draws = s.draws := rfl
@[simp] theorem getV_setSound (a : Word) (r : Reg) : getV (setSound s a) r = getV s r := rfl
@[simp] theorem memRead_setSound (a : Word) (k : Nat) : memRead (setSound s a) k = memRead s k := rfl
@[simp] theorem fbGet_setSound (a : Word) (p : Nat) : fbGet (setSound s a) p = fbGet s p := rfl
@[simp] theorem keyDown_setSound (a : Word) (k : Key) : keyDown (setSound s a) k = keyDown s k := rfl
@[simp] theorem effAddr_setSound (a : Word) (k : Nat) : effAddr (setSound s a) k = effAddr s k := rfl

/-! ### jumpTo -/

@[simp] theorem jumpTo_memory (a : Word) : (jumpTo s a).memory = s.memory := rfl
@[simp] theorem jumpTo_fb (a : Word) : (jumpTo s a).fb = s.fb := rfl
@[simp] theorem jumpTo_v (a : Word) : (jumpTo s a).v = s.v := rfl
@[simp] theorem jumpTo_pc (a : Word) : (jumpTo s a).pc = a := rfl
@[simp] theorem jumpTo_index (a : Word) : (jumpTo s a).index = s.index := rfl
@[simp] theorem jumpTo_stack (a : Word) : (jumpTo s a).stack = s.stack := rfl
@[simp] theorem jumpTo_sp (a : Word) : (jumpTo s a).sp = s.sp := rfl
@[simp] theorem jumpTo_delayTimer (a : Word) : (jumpTo s a).delayTimer = s.delayTimer := rfl
@[simp] theorem jumpTo_soundTimer (a : Word) : (jumpTo s a).soundTimer = s.soundTimer := rfl
@[simp] theorem jumpTo_keyState (a : Word) : (jumpTo s a).keyState = s.keyState := rfl
@[simp] theorem jumpTo_currentOpcode (a : Word) : (jumpTo s a).currentOpcode = s.currentOpcode := rfl
@[simp] theorem jumpTo_halted (a : Word) : (jumpTo s a).halted = s.halted := rfl
@[simp] theorem jumpTo_fbDirty (a : Word) : (jumpTo s a).fbDirty = s.fbDirty := rfl
@[simp] theorem jumpTo_diag (a : Word) : (jumpTo s a).diag = s.diag := rfl
@[simp] theorem jumpTo_diagLog (a : Word) : (jumpTo s a).diagLog = s.diagLog := rfl
@[simp] theorem jumpTo_randIn (a : Word) : (jumpTo s a).randIn = s.randIn := rfl
@[simp] theorem jumpTo_draws (a : Word) : (jumpTo s a).draws = s.draws := rfl
@[simp] theorem getV_jumpTo (a : Word) (r : Reg) : getV (jumpTo s a) r = getV s r := rfl
@[simp] theorem memRead_jumpTo (a : Word) (k : Nat) : memRead (jumpTo s a) k = memRead s k := rfl
@[simp] theorem fbGet_jumpTo (a : Word) (p : Nat) : fbGet (jumpTo s a) p = fbGet s p := rfl
@[simp] theorem keyDown_jumpTo (a : Word) (k : Key) : keyDown (jumpTo s a) k = keyDown s k := rfl
@[simp] theorem effAddr_jumpTo (a : Word) (k : Nat) : effAddr (jumpTo s a) k = effAddr s k := rfl

/-! ### memWrite -/

@[simp] theorem memWrite_memory (a : Nat) (b : Byte) : (memWrite s a b).memory = s.memory.write (cellOf a) b := rfl
@[simp] theorem memWrite_fb (a : Nat) (b : Byte) : (memWrite s a b).fb = s.fb := rfl
@[simp] theorem memWrite_v (a : Nat) (b : Byte) : (memWrite s a b).v = s.v := rfl
@[simp] theorem memWrite_pc (a : Nat) (b : Byte) : (memWrite s a b).pc = s.pc := rfl
@[simp] theorem memWrite_index (a : Nat) (b : Byte) : (memWrite s a b).index = s.index := rfl
@[simp] theorem memWrite_stack (a : Nat) (b : Byte) : (memWrite s a b).stack = s.stack := rfl
@[simp] theorem memWrite_sp (a : Nat) (b : Byte) : (memWrite s a b).sp = s.sp := rfl
@[simp] theorem memWrite_delayTimer (a : Nat) (b : Byte) : (memWrite s a b).delayTimer = s.delayTimer := rfl
@[simp] theorem memWrite_soundTimer (a : Nat) (b : Byte) : (memWrite s a b).soundTimer = s.soundTimer := rfl
@[simp] theorem memWrite_keyState (a : Nat) (b : Byte) : (memWrite s a b).keyState = s.keyState := rfl
@[simp] theorem memWrite_currentOpcode (a : Nat) (b : Byte) : (memWrite s a b).currentOpcode = s.currentOpcode := rfl
@[simp] theorem memWrite_halted (a : Nat) (b : Byte) : (memWrite s a b).halted = s.halted := rfl
@[simp] theorem memWrite_fbDirty (a : Nat) (b : Byte) : (memWrite s a b).fbDirty = s.fbDirty := rfl
@[simp] theorem memWrite_diag (a : Nat) (b : Byte) : (memWrite s a b).diag = s.diag := rfl
@[simp] theorem memWrite_diagLog (a : Nat) (b : Byte) : (memWrite s a b).diagLog = s.diagLog := rfl
@[simp] theorem memWrite_randIn (a : Nat) (b : Byte) : (memWrite s a b).randIn = s.randIn := rfl
@[simp] theorem memWrite_draws (a : Nat) (b : Byte) : (memWrite s a b).draws = s.draws := rfl
@[simp] theorem getV_memWrite (a : Nat) (b : Byte) (r : Reg) : getV (memWrite s a b) r = getV s r := rfl
@[simp] theorem fbGet_memWrite (a : Nat) (b : Byte) (p : Nat) : fbGet (memWrite s a b) p = fbGet s p := rfl
@[simp] theorem keyDown_memWrite (a : Nat) (b : Byte) (k : Key) : keyDown (memWrite s a b) k = keyDown s k := rfl
@[simp] theorem effAddr_memWrite (a : Nat) (b : Byte) (k : Nat) : effAddr (memWrite s a b) k = effAddr s k := rfl

/-! ### raiseDiag -/

@[simp] theorem raiseDiag_memory (c : DiagCode) : (raiseDiag c s).memory = s.memory := rfl
@[simp] theorem raiseDiag_fb (c : DiagCode) : (raiseDiag c s).fb = s.fb := rfl
@[simp] theorem raiseDiag_v (c : DiagCode) : (raiseDiag c s).v = s.v := rfl
@[simp] theorem raiseDiag_pc (c : DiagCode) : (raiseDiag c s).pc = s.pc := rfl
@[simp] theorem raiseDiag_index (c : DiagCode) : (raiseDiag c s).index = s.index := rfl
@[simp] theorem raiseDiag_stack (c : DiagCode) : (raiseDiag c s).stack = s.stack := rfl
@[simp] theorem raiseDiag_sp (c : DiagCode) : (raiseDiag c s).sp = s.sp := rfl
@[simp] theorem raiseDiag_delayTimer (c : DiagCode) : (raiseDiag c s).delayTimer = s.delayTimer := rfl
@[simp] theorem raiseDiag_soundTimer (c : DiagCode) : (raiseDiag c s).soundTimer = s.soundTimer := rfl
@[simp] theorem raiseDiag_keyState (c : DiagCode) : (raiseDiag c s).keyState = s.keyState := rfl
@[simp] theorem raiseDiag_currentOpcode (c : DiagCode) : (raiseDiag c s).currentOpcode = s.currentOpcode := rfl
@[simp] theorem raiseDiag_halted (c : DiagCode) : (raiseDiag c s).halted = s.halted := rfl
@[simp] theorem raiseDiag_fbDirty (c : DiagCode) : (raiseDiag c s).fbDirty = s.fbDirty := rfl
@[simp] theorem raiseDiag_diag (c : DiagCode) : (raiseDiag c s).diag = some ⟨c, s.pc, s.currentOpcode⟩ := rfl
@[simp] theorem raiseDiag_diagLog (c : DiagCode) : (raiseDiag c s).diagLog = s.diagLog ++ [⟨c, s.pc, s.currentOpcode⟩] := rfl
@[simp] theorem raiseDiag_randIn (c : DiagCode) : (raiseDiag c s).randIn = s.randIn := rfl
@[simp] theorem raiseDiag_draws (c : DiagCode) : (raiseDiag c s).draws = s.draws := rfl
@[simp] theorem getV_raiseDiag (c : DiagCode) (r : Reg) : getV (raiseDiag c s) r = getV s r := rfl
@[simp] theorem memRead_raiseDiag (c : DiagCode) (k : Nat) : memRead (raiseDiag c s) k = memRead s k := rfl
@[simp] theorem fbGet_raiseDiag (c : DiagCode) (p : Nat) : fbGet (raiseDiag c s) p = fbGet s p := rfl
@[simp] theorem keyDown_raiseDiag (c : DiagCode) (k : Key) : keyDown (raiseDiag c s) k = keyDown s k := rfl
@[simp] theorem effAddr_raiseDiag (c : DiagCode) (k : Nat) : effAddr (raiseDiag c s) k = effAddr s k := rfl

/-! ### fbToggle -/

@[simp] theorem fbToggle_memory (i : Nat) : (fbToggle s i).memory = s.memory := rfl
@[simp] theorem fbToggle_fb (i : Nat) : (fbToggle s i).fb = s.fb ^^^ BitVec.twoPow Config.fbPixels i := rfl
@[simp] theorem fbToggle_v (i : Nat) : (fbToggle s i).v = s.v := rfl
@[simp] theorem fbToggle_pc (i : Nat) : (fbToggle s i).pc = s.pc := rfl
@[simp] theorem fbToggle_index (i : Nat) : (fbToggle s i).index = s.index := rfl
@[simp] theorem fbToggle_stack (i : Nat) : (fbToggle s i).stack = s.stack := rfl
@[simp] theorem fbToggle_sp (i : Nat) : (fbToggle s i).sp = s.sp := rfl
@[simp] theorem fbToggle_delayTimer (i : Nat) : (fbToggle s i).delayTimer = s.delayTimer := rfl
@[simp] theorem fbToggle_soundTimer (i : Nat) : (fbToggle s i).soundTimer = s.soundTimer := rfl
@[simp] theorem fbToggle_keyState (i : Nat) : (fbToggle s i).keyState = s.keyState := rfl
@[simp] theorem fbToggle_currentOpcode (i : Nat) : (fbToggle s i).currentOpcode = s.currentOpcode := rfl
@[simp] theorem fbToggle_halted (i : Nat) : (fbToggle s i).halted = s.halted := rfl
@[simp] theorem fbToggle_fbDirty (i : Nat) : (fbToggle s i).fbDirty = s.fbDirty := rfl
@[simp] theorem fbToggle_diag (i : Nat) : (fbToggle s i).diag = s.diag := rfl
@[simp] theorem fbToggle_diagLog (i : Nat) : (fbToggle s i).diagLog = s.diagLog := rfl
@[simp] theorem fbToggle_randIn (i : Nat) : (fbToggle s i).randIn = s.randIn := rfl
@[simp] theorem fbToggle_draws (i : Nat) : (fbToggle s i).draws = s.draws := rfl
@[simp] theorem getV_fbToggle (i : Nat) (r : Reg) : getV (fbToggle s i) r = getV s r := rfl
@[simp] theorem memRead_fbToggle (i : Nat) (k : Nat) : memRead (fbToggle s i) k = memRead s k := rfl
@[simp] theorem keyDown_fbToggle (i : Nat) (k : Key) : keyDown (fbToggle s i) k = keyDown s k := rfl
@[simp] theorem effAddr_fbToggle (i : Nat) (k : Nat) : effAddr (fbToggle s i) k = effAddr s k := rfl

/-! ### fbClear -/

@[simp] theorem fbClear_memory : (fbClear s).memory = s.memory := rfl
@[simp] theorem fbClear_fb : (fbClear s).fb = 0 := rfl
@[simp] theorem fbClear_v : (fbClear s).v = s.v := rfl
@[simp] theorem fbClear_pc : (fbClear s).pc = s.pc := rfl
@[simp] theorem fbClear_index : (fbClear s).index = s.index := rfl
@[simp] theorem fbClear_stack : (fbClear s).stack = s.stack := rfl
@[simp] theorem fbClear_sp : (fbClear s).sp = s.sp := rfl
@[simp] theorem fbClear_delayTimer : (fbClear s).delayTimer = s.delayTimer := rfl
@[simp] theorem fbClear_soundTimer : (fbClear s).soundTimer = s.soundTimer := rfl
@[simp] theorem fbClear_keyState : (fbClear s).keyState = s.keyState := rfl
@[simp] theorem fbClear_currentOpcode : (fbClear s).currentOpcode = s.currentOpcode := rfl
@[simp] theorem fbClear_halted : (fbClear s).halted = s.halted := rfl
@[simp] theorem fbClear_fbDirty : (fbClear s).fbDirty = s.fbDirty := rfl
@[simp] theorem fbClear_diag : (fbClear s).diag = s.diag := rfl
@[simp] theorem fbClear_diagLog : (fbClear s).diagLog = s.diagLog := rfl
@[simp] theorem fbClear_randIn : (fbClear s).randIn = s.randIn := rfl
@[simp] theorem fbClear_draws : (fbClear s).draws = s.draws := rfl
@[simp] theorem getV_fbClear (r : Reg) : getV (fbClear s) r = getV s r := rfl
@[simp] theorem memRead_fbClear (k : Nat) : memRead (fbClear s) k = memRead s k := rfl
@[simp] theorem keyDown_fbClear (k : Key) : keyDown (fbClear s) k = keyDown s k := rfl
@[simp] theorem effAddr_fbClear (k : Nat) : effAddr (fbClear s) k = effAddr s k := rfl

/-! ### markDirty -/

@[simp] theorem markDirty_memory : (markDirty s).memory = s.memory := rfl
@[simp] theorem markDirty_fb : (markDirty s).fb = s.fb := rfl
@[simp] theorem markDirty_v : (markDirty s).v = s.v := rfl
@[simp] theorem markDirty_pc : (markDirty s).pc = s.pc := rfl
@[simp] theorem markDirty_index : (markDirty s).index = s.index := rfl
@[simp] theorem markDirty_stack : (markDirty s).stack = s.stack := rfl
@[simp] theorem markDirty_sp : (markDirty s).sp = s.sp := rfl
@[simp] theorem markDirty_delayTimer : (markDirty s).delayTimer = s.delayTimer := rfl
@[simp] theorem markDirty_soundTimer : (markDirty s).soundTimer = s.soundTimer := rfl
@[simp] theorem markDirty_keyState : (markDirty s).keyState = s.keyState := rfl
@[simp] theorem markDirty_currentOpcode : (markDirty s).currentOpcode = s.currentOpcode := rfl
@[simp] theorem markDirty_halted : (markDirty s).halted = s.halted := rfl
@[simp] theorem markDirty_fbDirty : (markDirty s).fbDirty = true := rfl
@[simp] theorem markDirty_diag : (markDirty s).diag = s.diag := rfl
@[simp] theorem markDirty_diagLog : (markDirty s).diagLog = s.diagLog := rfl
@[simp] theorem markDirty_randIn : (markDirty s).randIn = s.randIn := rfl
@[simp] theorem markDirty_draws : (markDirty s).draws = s.draws := rfl
@[simp] theorem getV_markDirty (r : Reg) : getV (markDirty s) r = getV s r := rfl
@[simp] theorem memRead_markDirty (k : Nat) : memRead (markDirty s) k = memRead s k := rfl
@[simp] theorem fbGet_markDirty (p : Nat) : fbGet (markDirty s) p = fbGet s p := rfl
@[simp] theorem keyDown_markDirty (k : Key) : keyDown (markDirty s) k = keyDown s k := rfl
@[simp] theorem effAddr_markDirty (k : Nat) : effAddr (markDirty s) k = effAddr s k := rfl

/-! ### countDraw -/

@[simp] theorem countDraw_memory : (countDraw s).memory = s.memory := rfl
@[simp] theorem countDraw_fb : (countDraw s).fb = s.fb := rfl
@[simp] theorem countDraw_v : (countDraw s).v = s.v := rfl
@[simp] theorem countDraw_pc : (countDraw s).pc = s.pc := rfl
@[simp] theorem countDraw_index : (countDraw s).index = s.index := rfl
@[simp] theorem countDraw_stack : (countDraw s).stack = s.stack := rfl
@[simp] theorem countDraw_sp : (countDraw s).sp = s.sp := rfl
@[simp] theorem countDraw_delayTimer : (countDraw s).delayTimer = s.delayTimer := rfl
@[simp] theorem countDraw_soundTimer : (countDraw s).soundTimer = s.soundTimer := rfl
@[simp] theorem countDraw_keyState : (countDraw s).keyState = s.keyState := rfl
@[simp] theorem countDraw_currentOpcode : (countDraw s).currentOpcode = s.currentOpcode := rfl
@[simp] theorem countDraw_halted : (countDraw s).halted = s.halted := rfl
@[simp] theorem countDraw_fbDirty : (countDraw s).fbDirty = s.fbDirty := rfl
@[simp] theorem countDraw_diag : (countDraw s).diag = s.diag := rfl
@[simp] theorem countDraw_diagLog : (countDraw s).diagLog = s.diagLog := rfl
@[simp] theorem countDraw_randIn : (countDraw s).randIn = s.randIn := rfl
@[simp] theorem countDraw_draws : (countDraw s).draws = s.draws + 1 := rfl
@[simp] theorem getV_countDraw (r : Reg) : getV (countDraw s) r = getV s r := rfl
@[simp] theorem memRead_countDraw (k : Nat) : memRead (countDraw s) k = memRead s k := rfl
@[simp] theorem fbGet_countDraw (p : Nat) : fbGet (countDraw s) p = fbGet s p := rfl
@[simp] theorem keyDown_countDraw (k : Key) : keyDown (countDraw s) k = keyDown s k := rfl
@[simp] theorem effAddr_countDraw (k : Nat) : effAddr (countDraw s) k = effAddr s k := rfl

/-! ### latchFetch -/

@[simp] theorem latchFetch_memory : (latchFetch s).memory = s.memory := rfl
@[simp] theorem latchFetch_fb : (latchFetch s).fb = s.fb := rfl
@[simp] theorem latchFetch_v : (latchFetch s).v = s.v := rfl
@[simp] theorem latchFetch_pc : (latchFetch s).pc = s.pc := rfl
@[simp] theorem latchFetch_index : (latchFetch s).index = s.index := rfl
@[simp] theorem latchFetch_stack : (latchFetch s).stack = s.stack := rfl
@[simp] theorem latchFetch_sp : (latchFetch s).sp = s.sp := rfl
@[simp] theorem latchFetch_delayTimer : (latchFetch s).delayTimer = s.delayTimer := rfl
@[simp] theorem latchFetch_soundTimer : (latchFetch s).soundTimer = s.soundTimer := rfl
@[simp] theorem latchFetch_keyState : (latchFetch s).keyState = s.keyState := rfl
@[simp] theorem latchFetch_currentOpcode : (latchFetch s).currentOpcode = fetchWord s := rfl
@[simp] theorem latchFetch_halted : (latchFetch s).halted = s.halted := rfl
@[simp] theorem latchFetch_fbDirty : (latchFetch s).fbDirty = s.fbDirty := rfl
@[simp] theorem latchFetch_diag : (latchFetch s).diag = none := rfl
@[simp] theorem latchFetch_diagLog : (latchFetch s).diagLog = s.diagLog := rfl
@[simp] theorem latchFetch_randIn : (latchFetch s).randIn = s.randIn := rfl
@[simp] theorem latchFetch_draws : (latchFetch s).draws = s.draws := rfl
@[simp] theorem getV_latchFetch (r : Reg) : getV (latchFetch s) r = getV s r := rfl
@[simp] theorem memRead_latchFetch (k : Nat) : memRead (latchFetch s) k = memRead s k := rfl
@[simp] theorem fbGet_latchFetch (p : Nat) : fbGet (latchFetch s) p = fbGet s p := rfl
@[simp] theorem keyDown_latchFetch (k : Key) : keyDown (latchFetch s) k = keyDown s k := rfl
@[simp] theorem effAddr_latchFetch (k : Nat) : effAddr (latchFetch s) k = effAddr s k := rfl

/-! ### tickTimers -/

@[simp] theorem tickTimers_memory : (tickTimers s).memory = s.memory := rfl
@[simp] theorem tickTimers_fb : (tickTimers s).fb = s.fb := rfl
@[simp] theorem tickTimers_v : (tickTimers s).v = s.v := rfl
@[simp] theorem tickTimers_pc : (tickTimers s).pc = s.pc := rfl
@[simp] theorem tickTimers_index : (tickTimers s).index = s.index := rfl
@[simp] theorem tickTimers_stack : (tickTimers s).stack = s.stack := rfl
@[simp] theorem tickTimers_sp : (tickTimers s).sp = s.sp := rfl
@[simp] theorem tickTimers_delayTimer : (tickTimers s).delayTimer = tickDown s.delayTimer := rfl
@[simp] theorem tickTimers_soundTimer : (tickTimers s).soundTimer = tickDown s.soundTimer := rfl
@[simp] theorem tickTimers_keyState : (tickTimers s).keyState = s.keyState := rfl
@[simp] theorem tickTimers_currentOpcode : (tickTimers s).currentOpcode = s.currentOpcode := rfl
@[simp] theorem tickTimers_halted : (tickTimers s).halted = s.halted := rfl
@[simp] theorem tickTimers_fbDirty : (tickTimers s).fbDirty = s.fbDirty := rfl
@[simp] theorem tickTimers_diag : (tickTimers s).diag = s.diag := rfl
@[simp] theorem tickTimers_diagLog : (tickTimers s).diagLog = s.diagLog := rfl
@[simp] theorem tickTimers_randIn : (tickTimers s).randIn = s.randIn := rfl
@[simp] theorem tickTimers_draws : (tickTimers s).draws = s.draws := rfl
@[simp] theorem getV_tickTimers (r : Reg) : getV (tickTimers s) r = getV s r := rfl
@[simp] theorem memRead_tickTimers (k : Nat) : memRead (tickTimers s) k = memRead s k := rfl
@[simp] theorem fbGet_tickTimers (p : Nat) : fbGet (tickTimers s) p = fbGet s p := rfl
@[simp] theorem keyDown_tickTimers (k : Key) : keyDown (tickTimers s) k = keyDown s k := rfl
@[simp] theorem effAddr_tickTimers (k : Nat) : effAddr (tickTimers s) k = effAddr s k := rfl

/-! ### dropRandIn -/

@[simp] theorem dropRandIn_memory : (dropRandIn s).memory = s.memory := rfl
@[simp] theorem dropRandIn_fb : (dropRandIn s).fb = s.fb := rfl
@[simp] theorem dropRandIn_v : (dropRandIn s).v = s.v := rfl
@[simp] theorem dropRandIn_pc : (dropRandIn s).pc = s.pc := rfl
@[simp] theorem dropRandIn_index : (dropRandIn s).index = s.index := rfl
@[simp] theorem dropRandIn_stack : (dropRandIn s).stack = s.stack := rfl
@[simp] theorem dropRandIn_sp : (dropRandIn s).sp = s.sp := rfl
@[simp] theorem dropRandIn_delayTimer : (dropRandIn s).delayTimer = s.delayTimer := rfl
@[simp] theorem dropRandIn_soundTimer : (dropRandIn s).soundTimer = s.soundTimer := rfl
@[simp] theorem dropRandIn_keyState : (dropRandIn s).keyState = s.keyState := rfl
@[simp] theorem dropRandIn_currentOpcode : (dropRandIn s).currentOpcode = s.currentOpcode := rfl
@[simp] theorem dropRandIn_halted : (dropRandIn s).halted = s.halted := rfl
@[simp] theorem dropRandIn_fbDirty : (dropRandIn s).fbDirty = s.fbDirty := rfl
@[simp] theorem dropRandIn_diag : (dropRandIn s).diag = s.diag := rfl
@[simp] theorem dropRandIn_diagLog : (dropRandIn s).diagLog = s.diagLog := rfl
@[simp] theorem dropRandIn_randIn : (dropRandIn s).randIn = none := rfl
@[simp] theorem dropRandIn_draws : (dropRandIn s).draws = s.draws := rfl
@[simp] theorem getV_dropRandIn (r : Reg) : getV (dropRandIn s) r = getV s r := rfl
@[simp] theorem memRead_dropRandIn (k : Nat) : memRead (dropRandIn s) k = memRead s k := rfl
@[simp] theorem fbGet_dropRandIn (p : Nat) : fbGet (dropRandIn s) p = fbGet s p := rfl
@[simp] theorem keyDown_dropRandIn (k : Key) : keyDown (dropRandIn s) k = keyDown s k := rfl
@[simp] theorem effAddr_dropRandIn (k : Nat) : effAddr (dropRandIn s) k = effAddr s k := rfl

end

/-! ### The operations made of these -/

@[simp] theorem advance_eq (s : State) : advance s = jumpTo s (s.pc + 2) := rfl

@[simp] theorem skipIf_eq (s : State) (c : Bool) :
    skipIf s c = jumpTo s (if c then s.pc + 4 else s.pc + 2) := rfl

@[simp] theorem setFlag_eq (s : State) (c : Bool) : setFlag s c = setV s flagReg (flagByte c) := rfl

@[simp] theorem reportAndIgnore_eq (c : DiagCode) (s : State) :
    reportAndIgnore c s = jumpTo (raiseDiag c s) (s.pc + 2) := rfl

@[simp] theorem unrecognized_eq (s : State) :
    unrecognized s = jumpTo (raiseDiag .unrecognizedOpcode s) (s.pc + 2) := rfl

@[simp] theorem selfJump_eq (s : State) :
    selfJump s = raiseDiag .selfJump { s with halted := true } := rfl

@[simp] theorem finishStep_eq (s : State) : finishStep s = dropRandIn (tickTimers s) := rfl

end Sys2Proof.Machine
end

