-- ==== Sys2Proof/Laws/Memory.lean ====
section
/-! SUPPORT. The laws of memory: a read after a write, every other cell left alone, and the
canonical form kept by every operation (20_memory.md R41, R45). -/

namespace Sys2Proof.Machine

open Sys2Proof

/-! ### The list -/

theorem Memory.read_erase_self (m : Memory) (a : Nat) : (m.erase a).read a = Memory.unlisted := by
  induction m with
  | nil => rfl
  | cons c m ih =>
    obtain ⟨k, b⟩ := c
    by_cases h : k = a
    · simpa [Memory.erase, h] using ih
    · simpa [Memory.erase, Memory.read, h] using ih

theorem Memory.read_erase_ne (m : Memory) {a k : Nat} (h : k ≠ a) :
    (m.erase a).read k = m.read k := by
  induction m with
  | nil => rfl
  | cons c m ih =>
    obtain ⟨j, b⟩ := c
    by_cases hj : j = a
    · have hk : j ≠ k := by omega
      simpa [Memory.erase, Memory.read, hj, hk, Ne.symm h] using ih
    · by_cases hk : j = k
      · simp [Memory.erase, Memory.read, hk, h]
      · simpa [Memory.erase, Memory.read, hj, hk] using ih

theorem Memory.not_mem_erase (m : Memory) (a : Nat) : ∀ c ∈ m.erase a, c.1 ≠ a := by
  intro c hc
  simpa using (List.mem_filter.mp hc).2

theorem Memory.read_insert_self (m : Memory) (a : Nat) (b : Byte) (h : ∀ c ∈ m, c.1 ≠ a) :
    (m.insert a b).read a = b := by
  induction m with
  | nil => simp [Memory.insert, Memory.read]
  | cons c m ih =>
    obtain ⟨k, v⟩ := c
    have hk : k ≠ a := h (k, v) (by simp)
    have hm : ∀ c ∈ m, c.1 ≠ a := fun c hc => h c (by simp [hc])
    by_cases hlt : a < k
    · simp [Memory.insert, hlt, Memory.read]
    · simpa [Memory.insert, hlt, Memory.read, hk] using ih hm

theorem Memory.read_insert_ne (m : Memory) {a k : Nat} (b : Byte) (h : k ≠ a) :
    (m.insert a b).read k = m.read k := by
  induction m with
  | nil => simp [Memory.insert, Memory.read, Ne.symm h]
  | cons c m ih =>
    obtain ⟨j, v⟩ := c
    by_cases hlt : a < j
    · simp [Memory.insert, hlt, Memory.read, Ne.symm h]
    · by_cases hj : j = k
      · subst hj
        simp [Memory.insert, hlt, Memory.read]
      · simpa [Memory.insert, hlt, Memory.read, hj] using ih

/-- A read of one cell after a write of one cell. -/
theorem Memory.read_write (m : Memory) (a k : Nat) (b : Byte) :
    (m.write a b).read k = if k = a then b else m.read k := by
  unfold Memory.write
  split
  · rename_i hb
    split
    · rename_i h; rw [h, Memory.read_erase_self, hb]
    · rename_i h; exact Memory.read_erase_ne m h
  · split
    · rename_i h; rw [h, Memory.read_insert_self _ _ _ (Memory.not_mem_erase m a)]
    · rename_i h; rw [Memory.read_insert_ne _ _ h, Memory.read_erase_ne m h]

theorem Memory.mem_insert (m : Memory) (a : Nat) (b : Byte) (c : Host.Cell)
    (h : c ∈ m.insert a b) : c = (a, b) ∨ c ∈ m := by
  induction m with
  | nil => simpa [Memory.insert] using h
  | cons d m ih =>
    obtain ⟨k, v⟩ := d
    by_cases hlt : a < k
    · simpa [Memory.insert, hlt] using h
    · simp only [Memory.insert, hlt, if_false, List.mem_cons] at h ⊢
      rcases h with h | h
      · exact .inr (.inl h)
      · rcases ih h with h | h
        · exact .inl h
        · exact .inr (.inr h)

theorem Memory.insert_rising (m : Memory) (a : Nat) (b : Byte)
    (hm : m.Pairwise (fun c d => c.1 < d.1)) (h : ∀ c ∈ m, c.1 ≠ a) :
    (m.insert a b).Pairwise (fun c d => c.1 < d.1) := by
  induction m with
  | nil => simp [Memory.insert]
  | cons d m ih =>
    obtain ⟨k, v⟩ := d
    have hk : k ≠ a := h (k, v) (by simp)
    obtain ⟨hfirst, hrest⟩ := List.pairwise_cons.mp hm
    by_cases hlt : a < k
    · simp only [Memory.insert, hlt, if_true]
      refine List.pairwise_cons.mpr ⟨?_, hm⟩
      intro c hc
      rcases List.mem_cons.mp hc with rfl | hc
      · exact hlt
      · exact Nat.lt_trans hlt (hfirst c hc)
    · simp only [Memory.insert, hlt, if_false]
      refine List.pairwise_cons.mpr ⟨?_, ih hrest (fun c hc => h c (by simp [hc]))⟩
      intro c hc
      rcases Memory.mem_insert m a b c hc with rfl | hc
      · show k < a
        omega
      · exact hfirst c hc

/-- Every write keeps the canonical form. -/
theorem Memory.wf_write (m : Memory) (a : Nat) (b : Byte) (ha : a < Config.memSize) (hm : m.wf) :
    (m.write a b).wf := by
  have her : (m.erase a).wf :=
    ⟨hm.1.filter _, fun c hc => hm.2 c (List.mem_filter.mp hc).1⟩
  unfold Memory.write
  split
  · exact her
  · rename_i hb
    refine ⟨Memory.insert_rising _ a b her.1 (Memory.not_mem_erase m a), fun c hc => ?_⟩
    rcases Memory.mem_insert _ a b c hc with rfl | hc
    · exact ⟨ha, hb⟩
    · exact her.2 c hc

theorem Memory.wf_nil : Memory.wf [] := ⟨.nil, by simp⟩

/-- A wf memory is determined by what its addresses read as. -/
theorem Memory.read_of_forall_lt (m : Memory) (a : Nat) (h : ∀ c ∈ m, a < c.1) :
    m.read a = Memory.unlisted := by
  induction m with
  | nil => rfl
  | cons c m ih =>
    obtain ⟨k, b⟩ := c
    have hk : k ≠ a := Nat.ne_of_gt (h (k, b) (by simp))
    simpa [Memory.read, hk] using ih (fun c hc => h c (by simp [hc]))

/-- Equal memories are equal data: two canonical lists that read alike at every address are one. -/
theorem Memory.ext_of_wf : ∀ (m n : Memory), m.wf → n.wf → (∀ a, m.read a = n.read a) → m = n
  | [], [], _, _, _ => rfl
  | [], (k, b) :: n, _, hn, h => by
    have := h k
    simp [Memory.read] at this
    exact absurd this.symm (hn.2 (k, b) (by simp)).2
  | (k, b) :: m, [], hm, _, h => by
    have := h k
    simp [Memory.read] at this
    exact absurd this (hm.2 (k, b) (by simp)).2
  | (k, b) :: m, (j, c) :: n, hm, hn, h => by
    obtain ⟨hmf, hmr⟩ := List.pairwise_cons.mp hm.1
    obtain ⟨hnf, hnr⟩ := List.pairwise_cons.mp hn.1
    have hmw : Memory.wf m := ⟨hmr, fun c hc => hm.2 c (by simp [hc])⟩
    have hnw : Memory.wf n := ⟨hnr, fun c hc => hn.2 c (by simp [hc])⟩
    have hb := (hm.2 (k, b) (by simp)).2
    have hc := (hn.2 (j, c) (by simp)).2
    rcases Nat.lt_trichotomy k j with hlt | heq | hgt
    · have hk := h k
      rw [Memory.read_of_forall_lt ((j, c) :: n) k] at hk
      · simp [Memory.read] at hk; exact absurd hk hb
      · intro d hd
        rcases List.mem_cons.mp hd with rfl | hd
        · exact hlt
        · exact Nat.lt_trans hlt (hnf d hd)
    · subst heq
      have hk := h k
      simp [Memory.read] at hk
      subst hk
      have : m = n := by
        refine Memory.ext_of_wf m n hmw hnw fun a => ?_
        by_cases ha : k = a
        · subst ha
          rw [Memory.read_of_forall_lt m k hmf, Memory.read_of_forall_lt n k hnf]
        · simpa [Memory.read, ha] using h a
      rw [this]
    · have hj := h j
      rw [Memory.read_of_forall_lt ((k, b) :: m) j] at hj
      · simp [Memory.read] at hj; exact absurd hj.symm hc
      · intro d hd
        rcases List.mem_cons.mp hd with rfl | hd
        · exact hgt
        · exact Nat.lt_trans hgt (hmf d hd)

/-! ### The machine's accesses -/

theorem cellOf_lt (a : Nat) : cellOf a < Config.memSize := Nat.mod_lt _ (by decide)

@[simp] theorem cellOf_cellOf (a : Nat) : cellOf (cellOf a) = cellOf a := Nat.mod_mod _ _

/-- Everything a single-byte store does to memory: the one cell addressed. -/
theorem memRead_memWrite (s : State) (a k : Nat) (b : Byte) :
    memRead (memWrite s a b) k = if cellOf k = cellOf a then b else memRead s k := by
  simp [memRead, Memory.read_write]

theorem wf_memWrite (s : State) (a : Nat) (b : Byte) (h : s.memory.wf) :
    (memWrite s a b).memory.wf := Memory.wf_write _ _ _ (cellOf_lt a) h

end Sys2Proof.Machine
end

