-- ==== Sys2Proof/Laws/Ops.lean ====
section
/-! SUPPORT. One lemma per shared operation that says everything it can do: registers, call stack,
framebuffer, timers, the register ranges of Fx55 and Fx65, the BCD store. -/

namespace Sys2Proof.Machine

open Sys2Proof

/-! ### Registers -/

/-- A register read after a register write. -/
theorem getV_setV (s : State) (x r : Reg) (b : Byte) :
    getV (setV s x b) r = if r = x then b else getV s r := by
  unfold getV setV
  by_cases h : r = x
  · subst h; simp
  · have : x.val ≠ r.val := fun e => h (Fin.ext e.symm)
    simp [Vector.getElem_set_ne, this, h]

@[simp] theorem getV_setV_self (s : State) (x : Reg) (b : Byte) : getV (setV s x b) x = b := by
  simp [getV_setV]

/-- Two states with the same registers. -/
theorem v_ext {s t : State} (h : ∀ r, getV t r = getV s r) : t.v = s.v := by
  apply Vector.ext
  intro i hi
  exact h ⟨i, hi⟩

/-! ### The call stack -/

/-- A push answers a state exactly when an entry is free; then this is the state. -/
theorem pushPc_cases (s : State) :
    (∃ h : s.sp.val < 16, pushPc s =
        some { s with stack := s.stack.set s.sp.val s.pc, sp := ⟨s.sp.val + 1, Nat.succ_lt_succ h⟩ }) ∨
      (s.sp.val = 16 ∧ pushPc s = none) := by
  have hsp := s.sp.isLt
  by_cases h : s.sp.val < 16
  · exact .inl ⟨h, by simp [pushPc, h]⟩
  · exact .inr ⟨by omega, by simp [pushPc, h]⟩

/-- A pop answers an entry exactly when one is live; then this is the entry and the state. -/
theorem popPc_cases (s : State) :
    (∃ h : 0 < s.sp.val, popPc s =
        some (s.stack[s.sp.val - 1]'(by have := s.sp.isLt; simp only [Config.stackDepth]; omega),
          { s with sp := ⟨s.sp.val - 1, by omega⟩ })) ∨
      (s.sp.val = 0 ∧ popPc s = none) := by
  by_cases h : 0 < s.sp.val
  · exact .inl ⟨h, by simp [popPc, h]⟩
  · exact .inr ⟨by omega, by simp [popPc, h]⟩

/-! ### The framebuffer -/

/-- A pixel after an XOR with 1 of one pixel of the screen. -/
theorem fbGet_fbToggle_apply (s : State) (i p : Nat) (hi : i < Config.fbPixels) :
    fbGet (fbToggle s i) p = (fbGet s p ^^ decide (p = i)) := by
  by_cases h : p = i
  · subst h; simp [fbGet, hi]
  · have : i ≠ p := fun e => h e.symm
    simp [fbGet, BitVec.getLsbD_twoPow, h, this]

theorem fbGet_fbClear_apply (s : State) (p : Nat) : fbGet (fbClear s) p = false := by
  simp [fbGet]

/-- Two framebuffers that agree on every pixel are equal. -/
theorem fb_ext {s t : State} (h : ∀ p, fbGet t p = fbGet s p) : t.fb = s.fb :=
  BitVec.eq_of_getLsbD_eq fun i _ => h i

theorem spritePixel_lt (cx cy : Byte) (r k : Nat) : spritePixel cx cy r k < Config.fbPixels := by
  simp only [spritePixel, pixelIndex, Config.fbWidth, Config.fbHeight, Config.fbPixels]
  omega

/-! ### Timers -/

/-- The tick is a decrement that stops at 0. -/
theorem tickDown_toNat (t : Word) : (tickDown t).toNat = t.toNat - 1 := by
  unfold tickDown
  split
  · rename_i h; subst h; rfl
  · rename_i h
    have h0 : t.toNat ≠ 0 := fun e => h (BitVec.eq_of_toNat_eq (by simpa using e))
    have := t.isLt
    rw [BitVec.toNat_sub]
    simp
    omega

/-! ### Operand values -/

@[simp] theorem zextAddr_toNat (nnn : Addr12) : (zextAddr nnn).toNat = nnn.toNat := by
  have := nnn.isLt
  simp [zextAddr, BitVec.toNat_setWidth]
  omega

@[simp] theorem zextByte_toNat (b : Byte) : (zextByte b).toNat = b.toNat := by
  have := b.isLt
  simp [zextByte, BitVec.toNat_setWidth]
  omega

/-- `V[x] * 5` fits in 16 bits. -/
theorem glyphAddr_toNat (b : Byte) : (glyphAddr b).toNat = b.toNat * 5 := by
  have := b.isLt
  simp [glyphAddr, BitVec.toNat_mul]
  omega

theorem mem_regsUpTo (x r : Reg) : r ∈ regsUpTo x ↔ r ≤ x := by simp [regsUpTo]

theorem nodup_regsUpTo (x : Reg) : (regsUpTo x).Nodup := (List.nodup_finRange 16).filter _

theorem mem_pressedKeys (s : State) (k : Key) : k ∈ pressedKeys s ↔ keyDown s k = true := by
  simp [pressedKeys]

/-- The pressed keys ascend. -/
theorem pressedKeys_sorted (s : State) : (pressedKeys s).Pairwise (· < ·) := by
  have h : (List.finRange 16).Pairwise (· < ·) := by decide
  exact h.filter _

/-! ### Memory operands: neighbouring cells are different cells -/

/-- Fewer than 4096 neighbours of `I` are different cells. -/
theorem cellOf_effAddr_inj (s : State) {i j : Nat} (hi : i < 4096) (hj : j < 4096)
    (h : cellOf (effAddr s i) = cellOf (effAddr s j)) : i = j := by
  simp only [cellOf, effAddr, Config.memSize] at h
  omega

/-! ### The BCD store (Fx33) -/

/-- The cells after the BCD store. -/
theorem memRead_storeBcd (s : State) (b : Byte) (k : Nat) :
    memRead (storeBcd s b) k =
      if cellOf k = cellOf (effAddr s 2) then bcdOnes b
      else if cellOf k = cellOf (effAddr s 1) then bcdTens b
      else if cellOf k = cellOf (effAddr s 0) then bcdHundreds b
      else memRead s k := by
  simp only [storeBcd, memRead_memWrite]

/-- The BCD store changes nothing but memory. -/
theorem storeBcd_eq (s : State) (b : Byte) :
    storeBcd s b = { s with memory := (storeBcd s b).memory } := rfl

theorem wf_storeBcd (s : State) (b : Byte) (h : s.memory.wf) : (storeBcd s b).memory.wf :=
  wf_memWrite _ _ _ (wf_memWrite _ _ _ (wf_memWrite _ _ _ h))

/-! ### The register store (Fx55) -/

/-- Storing registers changes nothing but memory. -/
theorem foldl_storeReg_eq (l : List Reg) (s : State) :
    l.foldl storeReg s = { s with memory := (l.foldl storeReg s).memory } := by
  induction l generalizing s with
  | nil => rfl
  | cons i l ih =>
    simp only [List.foldl_cons]
    rw [ih (storeReg s i)]
    rfl

theorem wf_foldl_storeReg (l : List Reg) (s : State) (h : s.memory.wf) :
    (l.foldl storeReg s).memory.wf := by
  induction l generalizing s with
  | nil => exact h
  | cons i l ih => exact ih _ (wf_memWrite _ _ _ h)

/-- A cell that no stored register reaches is as before. -/
theorem memRead_foldl_storeReg_of_notMem (l : List Reg) (s : State) (k : Nat)
    (h : ∀ i ∈ l, cellOf k ≠ cellOf (effAddr s i.val)) :
    memRead (l.foldl storeReg s) k = memRead s k := by
  induction l generalizing s with
  | nil => rfl
  | cons i l ih =>
    have hi := h i (by simp)
    simp only [List.foldl_cons]
    rw [ih (storeReg s i) (fun j hj => h j (by simp [hj]))]
    simp [storeReg, memRead_memWrite, hi]

/-- The cell of a stored register holds it. -/
theorem memRead_foldl_storeReg_of_mem (l : List Reg) (s : State) (k : Nat) (i : Reg)
    (hl : l.Nodup) (hi : i ∈ l) (hk : cellOf k = cellOf (effAddr s i.val)) :
    memRead (l.foldl storeReg s) k = getV s i := by
  induction l generalizing s with
  | nil => simp at hi
  | cons j l ih =>
    obtain ⟨hj, hl⟩ := List.nodup_cons.mp hl
    simp only [List.foldl_cons]
    rcases List.mem_cons.mp hi with rfl | hi
    · rw [memRead_foldl_storeReg_of_notMem l (storeReg s i) k]
      · simp [storeReg, memRead_memWrite, hk]
      · intro j hjl e
        have hne : i.val = j.val := cellOf_effAddr_inj s (by omega) (by omega) (hk.symm.trans e)
        exact hj (Fin.ext hne ▸ hjl)
    · exact ih (storeReg s j) hl hi hk

/-! ### The register load (Fx65) -/

/-- Loading registers changes nothing but the registers. -/
theorem foldl_loadReg_eq (l : List Reg) (s : State) :
    l.foldl loadReg s = { s with v := (l.foldl loadReg s).v } := by
  induction l generalizing s with
  | nil => rfl
  | cons i l ih =>
    simp only [List.foldl_cons]
    rw [ih (loadReg s i)]
    rfl

/-- Each register of the range holds its cell, every other is as before. -/
theorem getV_foldl_loadReg (l : List Reg) (s : State) (r : Reg) :
    getV (l.foldl loadReg s) r = if r ∈ l then memRead s (effAddr s r.val) else getV s r := by
  induction l generalizing s with
  | nil => simp
  | cons i l ih =>
    simp only [List.foldl_cons]
    rw [ih (loadReg s i)]
    by_cases hr : r = i
    · subst hr; simp [loadReg]
    · simp [loadReg, getV_setV, hr]

end Sys2Proof.Machine
end

