-- ==== Sys2Proof/Laws/Draw.lean ====
section
/-! SUPPORT. The sprite draw as one pass over the pixels its set bits fall on (44_display.md R131):
no pixel is touched twice, so the order of the loops does not matter. -/

namespace Sys2Proof.Machine

open Sys2Proof

/-- The pixels that the set bits of row `r` fall on, from the left. -/
def rowPixels (cx cy : Byte) (row : Byte) (r : Nat) : List Nat :=
  ((List.range 8).filter (fun k => spriteBit row k)).map (spritePixel cx cy r)

/-- The pixels of the first `n` rows, row by row. -/
def spritePixels (s : State) (cx cy : Byte) (base n : Nat) : List Nat :=
  (List.range n).flatMap (fun r => rowPixels cx cy (memRead s (base + r)) r)

/-! ### One pixel -/

theorem hitPixel_eq (s : State) (i : Nat) :
    hitPixel s i = { s with fb := (hitPixel s i).fb, v := (hitPixel s i).v } := by
  unfold hitPixel
  split <;> rfl

theorem fbGet_hitPixel (s : State) (i p : Nat) (hi : i < Config.fbPixels) :
    fbGet (hitPixel s i) p = (fbGet s p ^^ decide (p = i)) := by
  unfold hitPixel
  simp only [fbGet_fbToggle_apply _ _ _ hi]
  split <;> simp

theorem getV_hitPixel (s : State) (i : Nat) (r : Reg) :
    getV (hitPixel s i) r = if r = flagReg ∧ fbGet s i = true then 1 else getV s r := by
  unfold hitPixel
  by_cases h : fbGet s i <;> by_cases hr : r = flagReg <;> simp [h, hr, getV_setV, flagByte]

/-! ### The loops are one pass over the pixels -/

theorem foldl_drawBit (cx cy : Byte) (r : Nat) (row : Byte) (l : List Nat) (s : State) :
    l.foldl (drawBit cx cy r row) s =
      ((l.filter (fun k => spriteBit row k)).map (spritePixel cx cy r)).foldl hitPixel s := by
  induction l generalizing s with
  | nil => rfl
  | cons k l ih =>
    by_cases h : spriteBit row k <;> simp [drawBit, h, ih]

theorem drawRow_eq (cx cy : Byte) (base r : Nat) (s : State) :
    drawRow cx cy base s r = (rowPixels cx cy (memRead s (base + r)) r).foldl hitPixel s :=
  foldl_drawBit _ _ _ _ _ _

/-- A pass over pixels changes nothing but the framebuffer and the flag. -/
theorem foldl_hitPixel_eq (l : List Nat) (s : State) :
    l.foldl hitPixel s = { s with fb := (l.foldl hitPixel s).fb, v := (l.foldl hitPixel s).v } := by
  induction l generalizing s with
  | nil => rfl
  | cons i l ih =>
    simp only [List.foldl_cons]
    rw [ih (hitPixel s i), hitPixel_eq s i]

theorem memRead_foldl_hitPixel (l : List Nat) (s : State) (a : Nat) :
    memRead (l.foldl hitPixel s) a = memRead s a := by
  rw [foldl_hitPixel_eq]
  rfl

/-- The two loops of the draw are one pass over the sprite's pixels. -/
theorem foldl_drawRow (cx cy : Byte) (base : Nat) (l : List Nat) (s : State) :
    l.foldl (drawRow cx cy base) s =
      (l.flatMap (fun r => rowPixels cx cy (memRead s (base + r)) r)).foldl hitPixel s := by
  induction l generalizing s with
  | nil => rfl
  | cons r l ih =>
    rw [List.foldl_cons, ih, drawRow_eq, List.flatMap_cons, List.foldl_append]
    simp only [memRead_foldl_hitPixel]

/-! ### A pass over different pixels -/

/-- After a pass over different pixels of the screen, exactly those are inverted. -/
theorem fbGet_foldl_hitPixel (l : List Nat) (s : State) (p : Nat) (hn : l.Nodup)
    (hl : ∀ i ∈ l, i < Config.fbPixels) :
    fbGet (l.foldl hitPixel s) p = (fbGet s p ^^ decide (p ∈ l)) := by
  induction l generalizing s with
  | nil => simp
  | cons i l ih =>
    obtain ⟨hi, hn⟩ := List.nodup_cons.mp hn
    rw [List.foldl_cons, ih _ hn (fun j hj => hl j (by simp [hj])), fbGet_hitPixel _ _ _ (hl i (by simp))]
    by_cases h : p = i
    · subst h; simp [hi]
    · simp [h]

/-- After a pass over different pixels, the flag is 1 when one of them was set, else as before. -/
theorem getV_foldl_hitPixel (l : List Nat) (s : State) (r : Reg) (hn : l.Nodup)
    (hl : ∀ i ∈ l, i < Config.fbPixels) :
    getV (l.foldl hitPixel s) r =
      if r = flagReg ∧ ∃ i ∈ l, fbGet s i = true then 1 else getV s r := by
  induction l generalizing s with
  | nil => simp
  | cons i l ih =>
    obtain ⟨hi, hn⟩ := List.nodup_cons.mp hn
    rw [List.foldl_cons, ih _ hn (fun j hj => hl j (by simp [hj])), getV_hitPixel]
    have hsame : (∃ j ∈ l, fbGet (hitPixel s i) j = true) ↔ ∃ j ∈ l, fbGet s j = true := by
      refine exists_congr fun j => and_congr_right fun hj => ?_
      have : j ≠ i := fun e => hi (e ▸ hj)
      simp [fbGet_hitPixel _ _ _ (hl i (by simp)), this]
    simp only [hsame]
    by_cases hr : r = flagReg
    · by_cases hf : fbGet s i = true
      · simp [hr, hf]
      · simp [hr, hf]
    · simp [hr]

/-! ### The sprite's pixels -/

theorem mem_spritePixels (s : State) (cx cy : Byte) (base n p : Nat) :
    p ∈ spritePixels s cx cy base n ↔
      ∃ r < n, ∃ k < 8, spriteBit (memRead s (base + r)) k = true ∧ p = spritePixel cx cy r k := by
  simp only [spritePixels, rowPixels, List.mem_flatMap, List.mem_range, List.mem_map, List.mem_filter]
  refine exists_congr fun r => and_congr_right fun _ => exists_congr fun k => ?_
  constructor
  · rintro ⟨⟨hk, hb⟩, rfl⟩; exact ⟨hk, hb, rfl⟩
  · rintro ⟨hk, hb, rfl⟩; exact ⟨⟨hk, hb⟩, rfl⟩

theorem spritePixels_lt (s : State) (cx cy : Byte) (base n : Nat) :
    ∀ p ∈ spritePixels s cx cy base n, p < Config.fbPixels := by
  intro p hp
  obtain ⟨r, _, k, _, _, rfl⟩ := (mem_spritePixels s cx cy base n p).mp hp
  exact spritePixel_lt cx cy r k

/-- Within one draw of at most 32 rows, different bits fall on different pixels. -/
theorem spritePixel_inj (cx cy : Byte) {r r' k k' : Nat} (hr : r < 32) (hr' : r' < 32)
    (hk : k < 8) (hk' : k' < 8) (h : spritePixel cx cy r k = spritePixel cx cy r' k') :
    r = r' ∧ k = k' := by
  simp only [spritePixel, pixelIndex, Config.fbWidth, Config.fbHeight] at h
  omega

/-- No pixel is touched twice. -/
theorem nodup_spritePixels (s : State) (cx cy : Byte) (base n : Nat) (hn : n ≤ 32) :
    (spritePixels s cx cy base n).Nodup := by
  refine List.nodup_flatMap.mpr ⟨fun r hr => ?_, ?_⟩
  · refine List.Nodup.map_on ?_ (List.nodup_range.filter _)
    intro k hk k' hk' e
    have hr := List.mem_range.mp hr
    exact (spritePixel_inj cx cy (by omega) (by omega)
      (List.mem_range.mp (List.mem_filter.mp hk).1) (List.mem_range.mp (List.mem_filter.mp hk').1) e).2
  · refine List.Pairwise.imp_of_mem ?_ List.nodup_range
    intro r r' hr hr' hne p hp hp'
    simp only [rowPixels, List.mem_map, List.mem_filter, List.mem_range] at hp hp'
    obtain ⟨k, ⟨hk, _⟩, rfl⟩ := hp
    obtain ⟨k', ⟨hk', _⟩, e⟩ := hp'
    have h1 := List.mem_range.mp hr
    have h2 := List.mem_range.mp hr'
    exact hne (spritePixel_inj cx cy (by omega) (by omega) hk hk' e.symm).1

end Sys2Proof.Machine
end

