-- ==== Sys2Proof/Laws/PerInstr.lean ====
section
/-! SUPPORT. Facts about every instruction as syntax, one lemma per constructor: the encoder's word
agrees with the row of the opcode map (30_encoding.md R64). -/

namespace Sys2Proof.Laws

open Sys2Proof

/-- Masking a word of format `nnn` leaves its family. -/
theorem mask_encodeNNN (fam : BitVec 4) (nnn : Addr12) :
    encodeNNN fam nnn &&& 0xF000#16 = (fam ++ 0#12 : BitVec 16) := by
  have h : (0xF000#16 : BitVec 16) = (0xF#4 ++ 0x000#12 : BitVec 16) := by decide
  rw [h]
  refine BitVec.and_append.trans ?_
  have h1 : fam &&& 0xF#4 = fam := by revert fam; decide
  rw [h1, BitVec.and_zero]

/-- Masking a word of format `x_nn` with its low byte literal. -/
theorem mask_encodeXNN (fam : BitVec 4) (x : Reg) (nn : Byte) :
    encodeXNN fam x nn &&& 0xF0FF#16 = (fam ++ (0#4 ++ nn : BitVec 12) : BitVec 16) := by
  have h : (0xF0FF#16 : BitVec 16) = (0xF#4 ++ (0x0#4 ++ 0xFF#8 : BitVec 12) : BitVec 16) := by decide
  rw [h]
  refine BitVec.and_append.trans ?_
  have h1 : fam &&& 0xF#4 = fam := by revert fam; decide
  have h2 : nn &&& 0xFF#8 = nn := by revert nn; decide
  have h3 : (Reg.toField x ++ nn : BitVec 12) &&& (0x0#4 ++ 0xFF#8 : BitVec 12) = 0#4 ++ nn :=
    BitVec.and_append.trans (by rw [h2, BitVec.and_zero])
  rw [h1, h3]

/-- Masking a word of format `x_y` with its low nibble literal. -/
theorem mask_encodeXYN (fam n : BitVec 4) (x y : Reg) :
    encodeXYN fam x y n &&& 0xF00F#16 = (fam ++ (0#4 ++ (0#4 ++ n : BitVec 8) : BitVec 12) : BitVec 16) := by
  have h : (0xF00F#16 : BitVec 16) =
      (0xF#4 ++ (0x0#4 ++ (0x0#4 ++ 0xF#4 : BitVec 8) : BitVec 12) : BitVec 16) := by decide
  rw [h]
  refine BitVec.and_append.trans ?_
  have h1 : fam &&& 0xF#4 = fam := by revert fam; decide
  have h2 : n &&& 0xF#4 = n := by revert n; decide
  have h3 : (Reg.toField y ++ n : BitVec 8) &&& (0x0#4 ++ 0xF#4 : BitVec 8) = 0#4 ++ n :=
    BitVec.and_append.trans (by rw [h2, BitVec.and_zero])
  have h4 : (Reg.toField x ++ (Reg.toField y ++ n) : BitVec 12) &&&
      (0x0#4 ++ (0x0#4 ++ 0xF#4 : BitVec 8) : BitVec 12) = 0#4 ++ (0#4 ++ n) :=
    BitVec.and_append.trans (by rw [h3, BitVec.and_zero])
  rw [h1, h4]

/-- The encoder's word matches the instruction's row of the opcode map. -/
def TableRow.Statement (i : Instr) : Prop := encode i &&& i.mask = i.pattern

namespace TableRow

theorem cls : Statement .cls := rfl
theorem ret : Statement .ret := rfl
theorem jp (nnn : Addr12) : Statement (.jp nnn) := mask_encodeNNN 0x1#4 nnn
theorem call (nnn : Addr12) : Statement (.call nnn) := mask_encodeNNN 0x2#4 nnn
theorem seImm (x : Reg) (nn : Byte) : Statement (.seImm x nn) := mask_encodeNNN 0x3#4 _
theorem sneImm (x : Reg) (nn : Byte) : Statement (.sneImm x nn) := mask_encodeNNN 0x4#4 _
theorem seReg (x y : Reg) (n : BitVec 4) : Statement (.seReg x y n) := mask_encodeNNN 0x5#4 _
theorem ldImm (x : Reg) (nn : Byte) : Statement (.ldImm x nn) := mask_encodeNNN 0x6#4 _
theorem addImm (x : Reg) (nn : Byte) : Statement (.addImm x nn) := mask_encodeNNN 0x7#4 _
theorem ldReg (x y : Reg) : Statement (.ldReg x y) := mask_encodeXYN 0x8#4 0x0#4 x y
theorem or (x y : Reg) : Statement (.or x y) := mask_encodeXYN 0x8#4 0x1#4 x y
theorem and (x y : Reg) : Statement (.and x y) := mask_encodeXYN 0x8#4 0x2#4 x y
theorem xor (x y : Reg) : Statement (.xor x y) := mask_encodeXYN 0x8#4 0x3#4 x y
theorem addReg (x y : Reg) : Statement (.addReg x y) := mask_encodeXYN 0x8#4 0x4#4 x y
theorem sub (x y : Reg) : Statement (.sub x y) := mask_encodeXYN 0x8#4 0x5#4 x y
theorem shr (x y : Reg) : Statement (.shr x y) := mask_encodeXYN 0x8#4 0x6#4 x y
theorem subn (x y : Reg) : Statement (.subn x y) := mask_encodeXYN 0x8#4 0x7#4 x y
theorem shl (x y : Reg) : Statement (.shl x y) := mask_encodeXYN 0x8#4 0xE#4 x y
theorem sneReg (x y : Reg) (n : BitVec 4) : Statement (.sneReg x y n) := mask_encodeNNN 0x9#4 _
theorem ldI (nnn : Addr12) : Statement (.ldI nnn) := mask_encodeNNN 0xA#4 nnn
theorem jpV0 (nnn : Addr12) : Statement (.jpV0 nnn) := mask_encodeNNN 0xB#4 nnn
theorem rnd (x : Reg) (nn : Byte) : Statement (.rnd x nn) := mask_encodeNNN 0xC#4 _
theorem drw (x y : Reg) (n : Fin 16) : Statement (.drw x y n) := mask_encodeNNN 0xD#4 _
theorem skp (x : Reg) : Statement (.skp x) := mask_encodeXNN 0xE#4 x 0x9E#8
theorem sknp (x : Reg) : Statement (.sknp x) := mask_encodeXNN 0xE#4 x 0xA1#8
theorem ldVxDt (x : Reg) : Statement (.ldVxDt x) := mask_encodeXNN 0xF#4 x 0x07#8
theorem ldVxK (x : Reg) : Statement (.ldVxK x) := mask_encodeXNN 0xF#4 x 0x0A#8
theorem ldDtVx (x : Reg) : Statement (.ldDtVx x) := mask_encodeXNN 0xF#4 x 0x15#8
theorem ldStVx (x : Reg) : Statement (.ldStVx x) := mask_encodeXNN 0xF#4 x 0x18#8
theorem addI (x : Reg) : Statement (.addI x) := mask_encodeXNN 0xF#4 x 0x1E#8
theorem ldF (x : Reg) : Statement (.ldF x) := mask_encodeXNN 0xF#4 x 0x29#8
theorem ldB (x : Reg) : Statement (.ldB x) := mask_encodeXNN 0xF#4 x 0x33#8
theorem stRegs (x : Reg) : Statement (.stRegs x) := mask_encodeXNN 0xF#4 x 0x55#8
theorem ldRegs (x : Reg) : Statement (.ldRegs x) := mask_encodeXNN 0xF#4 x 0x65#8

end TableRow

end Sys2Proof.Laws
end

