-- ==== Sys2Proof/Tests/Slice0.lean ====
section
/-! SUPPORT. Our own tests. Expected values are from spec/95_test_vectors.md (the vector is named) or
worked out by hand from the rule named; words are written from the patterns of 30_encoding.md R64.
The `witness_` theorems show states and operands that meet the hypotheses of the statements of
Certificates/Slice0/Obligations.lean, clause by clause. -/

namespace Sys2Proof.Tests

open Sys2Proof Sys2Proof.Machine Sys2Proof.Safety

-- One theorem after another: the many small evaluations would each hold a thread.
set_option Elab.async false

/-! ### Helpers -/

/-- After reset, with a word at 0x200 and some registers set. -/
def start (w : Nat) (vs : List (Reg × Byte)) : State :=
  vs.foldl (fun s p => setV s p.1 p.2) (State.reset.withFetchWord 16 w)

/-- Some cells set. -/
def cells (cs : List (Nat × Byte)) (s : State) : State :=
  cs.foldl (fun s p => memWrite s p.1 p.2) s

/-- One key held down. -/
def key (k : Key) (s : State) : State := writeKeys ((Vector.replicate 16 false).set k.val true) s

/-- What is seen of the state after one step; nothing if the step does not answer one. -/
def see {α : Type} (f : State → α) (s : State) : Option α :=
  match step s with
  | .next t => some (f t)
  | .fault _ => none
  | .refused _ => none

/-- What is seen of the state after one instruction. -/
def seeExec {α : Type} (f : State → α) (i : Instr) (s : State) : Option α :=
  match exec i s with
  | .next t => some (f t)
  | .fault _ => none
  | .refused _ => none

/-- What is seen of the launch state. -/
def seeLaunch {α : Type} (f : State → α) : LaunchOutcome → Option α
  | .launched s => some (f s)
  | .romTooLarge _ => none

/-! ### Decoding: words from the patterns of R64, bit by bit -/

theorem test_decode_flow :
    decode 0b0000000011101110 = .ok .ret ∧
    decode 0b0001101010111100 = .ok (.jp 0xABC) ∧
    decode 0b0010001000010000 = .ok (.call 0x210) ∧
    decode 0b1011001100000000 = .ok (.jpV0 0x300) ∧
    decode 0b0011001100101010 = .ok (.seImm 3 0x2A) ∧
    decode 0b0100001100101011 = .ok (.sneImm 3 0x2B) ∧
    decode 0b0101000100100111 = .ok (.seReg 1 2 7) ∧
    decode 0b1001000100100000 = .ok (.sneReg 1 2 0) := by decide

theorem test_decode_alu :
    decode 0b0110101000000011 = .ok (.ldImm 10 0x03) ∧
    decode 0b0111000111111111 = .ok (.addImm 1 0xFF) ∧
    decode 0b1000000100100000 = .ok (.ldReg 1 2) ∧
    decode 0b1000000100100001 = .ok (.or 1 2) ∧
    decode 0b1000000100100010 = .ok (.and 1 2) ∧
    decode 0b1000000100100011 = .ok (.xor 1 2) ∧
    decode 0b1000000100100100 = .ok (.addReg 1 2) ∧
    decode 0b1000000100100101 = .ok (.sub 1 2) ∧
    decode 0b1000000100100110 = .ok (.shr 1 2) ∧
    decode 0b1000000100100111 = .ok (.subn 1 2) ∧
    decode 0b1000000100101110 = .ok (.shl 1 2) ∧
    decode 0b1100110100001111 = .ok (.rnd 13 0x0F) := by decide

theorem test_decode_index_memory :
    decode 0b1010001100000000 = .ok (.ldI 0x300) ∧
    decode 0b1111001000011110 = .ok (.addI 2) ∧
    decode 0b1111001100101001 = .ok (.ldF 3) ∧
    decode 0b1111000000110011 = .ok (.ldB 0) ∧
    decode 0b1111111101010101 = .ok (.stRegs 15) ∧
    decode 0b1111001001100101 = .ok (.ldRegs 2) := by decide

theorem test_decode_display :
    decode 0b0000000011100000 = .ok .cls ∧
    decode 0b1101000000011111 = .ok (.drw 0 1 15) := by decide

theorem test_decode_keys_timers :
    decode 0b1110001110011110 = .ok (.skp 3) ∧
    decode 0b1110000110100001 = .ok (.sknp 1) ∧
    decode 0b1111101100000111 = .ok (.ldVxDt 11) ∧
    decode 0b1111001100001010 = .ok (.ldVxK 3) ∧
    decode 0b1111101000010101 = .ok (.ldDtVx 10) ∧
    decode 0b1111001000011000 = .ok (.ldStVx 2) := by decide

/-- V-STEP-2 to V-STEP-7: words beside the patterns. -/
theorem test_decode_rejects :
    (decode 0x8018).toOption = none ∧ (decode 0x01E0).toOption = none ∧
    (decode 0x00FF).toOption = none ∧ (decode 0xE19F).toOption = none ∧
    (decode 0xF1FF).toOption = none ∧ (decode 0xF075).toOption = none := by decide

theorem test_encode_of_listing :
    encode (.drw 0 1 2) = 0xD012 ∧ encode (.ldB 0) = 0xF033 ∧ encode (.addImm 1 0xFF) = 0x71FF ∧
    encode (.seReg 1 2 7) = 0x5127 := by decide

theorem test_decodeTableWord :
    decodeTableWord 16 0x8125 = some (.sub 1 2) ∧ decodeTableWord 16 0x8128 = none := by decide

/-! ### WellFormed smoke: the one check refuses its ill-formed terms (R67) -/

theorem test_wellFormed_refuses_seReg_nibble : Instr.wellFormed (.seReg 1 2 7) = false := by decide

theorem test_wellFormed_refuses_sneReg_nibble : Instr.wellFormed (.sneReg 1 2 5) = false := by decide

theorem test_wellFormed_accepts :
    Instr.wellFormed (.seReg 1 2 0) = true ∧ Instr.wellFormed (.sneReg 15 15 0) = true ∧
    Instr.wellFormed (.drw 15 15 15) = true := by decide

/-! ### Memory and the step around the instruction -/

theorem test_memory_canonical_write :
    Memory.write [(3, 7), (9, 1)] 5 4 = [(3, 7), (5, 4), (9, 1)] ∧
    Memory.write [(3, 7), (9, 1)] 3 0 = [(9, 1)] := by decide

/-- V-STEP-1: the empty machine reports word 0000 at 0x200. -/
theorem test_step_unrecognized :
    see (fun t => (t.pc, t.diag, t.halted)) State.reset =
      some (0x0202, some ⟨.unrecognizedOpcode, 0x0200, 0x0000⟩, false) := by decide

/-- V-STEP-8: the tick follows an unrecognized word. -/
theorem test_step_unrecognized_ticks :
    see (fun t => t.delayTimer) (setDelay State.reset 2) = some 1 := by decide

/-- V-STEP-9: fetch wraps from cell 0xFFF to cell 0x000, and `pc` is not reduced modulo 4096. -/
theorem test_step_fetch_wraps_memory :
    see (fun t => (t.currentOpcode, getV t 10, t.pc))
      (cells [(0xFFF, 0x6A), (0x000, 0x55)] (jumpTo State.reset 0x0FFF)) =
      some (0x6A55, 0x55, 0x1001) := by decide

/-- V-STEP-10: the same two cells from `pc = 0xFFFF`; `pc` wraps at 65536. -/
theorem test_step_fetch_wraps_pc :
    see (fun t => (getV t 10, t.pc))
      (cells [(0xFFF, 0x6A), (0x000, 0x55)] (jumpTo State.reset 0xFFFF)) =
      some (0x55, 0x0001) := by decide

/-! ### Control flow -/

/-- V-FLOW-1. -/
theorem test_jp_self :
    see (fun t => (t.pc, t.halted, t.diag)) (start 0x1200 []) =
      some (0x0200, true, some ⟨.selfJump, 0x0200, 0x1200⟩) := by decide

/-- V-FLOW-3: detection compares all 16 bits of `pc0`. -/
theorem test_jp_not_self_above_4095 :
    see (fun t => (t.pc, t.halted, t.diag)) (jumpTo (start 0x1200 []) 0x1200) =
      some (0x0200, false, none) := by decide

/-- V-FLOW-4. -/
theorem test_call :
    see (fun t => (t.pc, t.sp, t.stack[0])) (cells [(0x204, 0x22), (0x205, 0x10)]
      (jumpTo State.reset 0x0204)) = some (0x0210, 1, 0x0204) := by decide

/-- V-FLOW-5. -/
theorem test_call_full :
    see (fun t => (t.pc, t.sp, t.stack[15], t.diag)) { start 0x2200 [] with sp := 16 } =
      some (0x0202, 16, 0, some ⟨.stackOverflow, 0x0200, 0x2200⟩) := by decide

/-- V-FLOW-8. -/
theorem test_ret_empty :
    see (fun t => (t.pc, t.sp, t.diag)) (start 0x00EE []) =
      some (0x0202, 0, some ⟨.stackUnderflow, 0x0200, 0x00EE⟩) := by decide

/-- V-FLOW-9: the return address wraps at 65536. -/
theorem test_ret_wraps :
    see (fun t => (t.pc, t.sp, t.stack[15]))
      { start 0x00EE [] with sp := 16, stack := State.reset.stack.set 15 0xFFFF } =
      some (0x0001, 15, 0xFFFF) := by decide

/-- V-FLOW-11. -/
theorem test_jpV0_above_4095 :
    see (fun t => t.pc) (start 0xBFFF [(0, 0xFF)]) = some 0x10FE := by decide

/-- V-FLOW-12: no detection. -/
theorem test_jpV0_to_itself :
    see (fun t => (t.pc, t.halted, t.diag)) (start 0xB200 []) = some (0x0200, false, none) := by decide

/-- V-FLOW-13, V-FLOW-14. -/
theorem test_seImm :
    see (fun t => t.pc) (start 0x332A [(3, 0x2A)]) = some 0x0204 ∧
    see (fun t => t.pc) (start 0x332B [(3, 0x2A)]) = some 0x0202 := by decide

/-- V-FLOW-15, V-FLOW-24 (the wrap). -/
theorem test_sneImm :
    see (fun t => t.pc) (start 0x432A [(3, 0x2A)]) = some 0x0202 ∧
    see (fun t => t.pc) (cells [(0xFFE, 0x41), (0xFFF, 0x00)] (jumpTo State.reset 0xFFFE)) =
      some 0x0000 := by decide

/-- V-FLOW-18: the low nibble is not examined. -/
theorem test_seReg :
    see (fun t => (t.pc, t.diag)) (start 0x5127 [(1, 7), (2, 7)]) = some (0x0204, none) := by decide

/-- V-FLOW-20, V-FLOW-22. -/
theorem test_sneReg :
    see (fun t => t.pc) (start 0x9120 [(1, 7), (2, 8)]) = some 0x0204 ∧
    see (fun t => t.pc) (start 0x9110 [(1, 7)]) = some 0x0202 := by decide

/-! ### Register load, arithmetic, logic, shifts and random -/

/-- V-ALU-1. -/
theorem test_ldImm : see (fun t => (getV t 10, t.pc)) (start 0x6A03 []) = some (3, 0x0202) := by decide

/-- S1 and V-ALU-3. -/
theorem test_addImm :
    see (fun t => (getV t 1, getV t 15)) (start 0x7101 [(1, 0xFF)]) = some (0, 0) ∧
    see (fun t => getV t 15) (start 0x7F01 [(15, 0xFF)]) = some 0 := by decide

/-- V-ALU-4. -/
theorem test_ldReg :
    see (fun t => (getV t 1, getV t 2)) (start 0x8120 [(2, 0x5A)]) = some (0x5A, 0x5A) := by decide

/-- V-ALU-5, V-ALU-6, V-ALU-7. -/
theorem test_logic :
    see (fun t => (getV t 1, getV t 15)) (start 0x8121 [(1, 0xF0), (2, 0x0F)]) = some (0xFF, 0) ∧
    see (fun t => (getV t 1, getV t 15)) (start 0x8122 [(1, 0xF0), (2, 0x3C)]) = some (0x30, 0) ∧
    see (fun t => (getV t 1, getV t 15)) (start 0x8123 [(1, 0xF0), (2, 0x3C)]) = some (0xCC, 0) := by
  decide

/-- S2, V-ALU-8. -/
theorem test_addReg :
    see (fun t => (getV t 1, getV t 15)) (start 0x8124 [(1, 0xFF), (2, 0x01)]) = some (0, 1) ∧
    see (fun t => (getV t 1, getV t 15)) (start 0x8124 [(1, 0xFE), (2, 0x01)]) = some (0xFF, 0) := by
  decide

/-- V-VF-1, V-VF-2. -/
theorem test_addReg_flag_operand :
    see (fun t => getV t 15) (start 0x8F14 [(15, 0xFF), (1, 0x02)]) = some 0x01 ∧
    see (fun t => (getV t 1, getV t 15)) (start 0x81F4 [(1, 0xFF), (15, 0x01)]) =
      some (0x00, 0x01) := by decide

/-- S3, V-ALU-11. -/
theorem test_sub :
    see (fun t => (getV t 1, getV t 15)) (start 0x8125 [(1, 3), (2, 5)]) = some (0xFE, 0) ∧
    see (fun t => (getV t 1, getV t 15)) (start 0x8125 [(1, 7), (2, 7)]) = some (0, 1) := by decide

/-- V-VF-4, V-VF-5, V-VF-7. -/
theorem test_sub_flag_operand :
    see (fun t => (getV t 1, getV t 15)) (start 0x81F5 [(1, 5), (15, 3)]) = some (4, 1) ∧
    see (fun t => getV t 15) (start 0x8F15 [(15, 9), (1, 5)]) = some 0xFC ∧
    see (fun t => getV t 15) (start 0x8FF5 [(15, 9)]) = some 0 := by decide

/-- V-ALU-14, V-ALU-15. -/
theorem test_subn :
    see (fun t => (getV t 1, getV t 15)) (start 0x8127 [(1, 3), (2, 5)]) = some (2, 1) ∧
    see (fun t => (getV t 1, getV t 15)) (start 0x8127 [(1, 5), (2, 3)]) = some (0xFE, 0) := by decide

/-- V-VF-8, V-VF-10, V-VF-12. -/
theorem test_subn_flag_operand :
    see (fun t => (getV t 1, getV t 15)) (start 0x81F7 [(1, 5), (15, 9)]) = some (0xFC, 1) ∧
    see (fun t => getV t 15) (start 0x8F17 [(15, 3), (1, 5)]) = some 4 ∧
    see (fun t => getV t 15) (start 0x8FF7 [(15, 9)]) = some 0 := by decide

/-- V-ALU-16, V-ALU-17. -/
theorem test_shr :
    see (fun t => (getV t 1, getV t 2, getV t 15)) (start 0x8126 [(1, 3), (2, 8)]) = some (4, 8, 1) ∧
    see (fun t => (getV t 1, getV t 15)) (start 0x8126 [(1, 2), (2, 9)]) = some (4, 0) := by decide

/-- V-VF-13, V-VF-14, V-VF-15. -/
theorem test_shr_flag_operand :
    see (fun t => (getV t 1, getV t 15)) (start 0x81F6 [(1, 3), (15, 8)]) = some (0, 1) ∧
    see (fun t => getV t 15) (start 0x8F16 [(15, 3), (1, 8)]) = some 4 ∧
    see (fun t => getV t 15) (start 0x8FF6 [(15, 3)]) = some 0 := by decide

/-- V-ALU-19, V-ALU-20. -/
theorem test_shl :
    see (fun t => (getV t 1, getV t 2, getV t 15)) (start 0x812E [(1, 0x81), (2, 0x41)]) =
      some (0x82, 0x41, 1) ∧
    see (fun t => (getV t 1, getV t 15)) (start 0x812E [(1, 0x01), (2, 0xC1)]) = some (0x82, 0) := by
  decide

/-- V-VF-16, V-VF-17, V-VF-18. -/
theorem test_shl_flag_operand :
    see (fun t => (getV t 1, getV t 15)) (start 0x81FE [(1, 0x80), (15, 7)]) = some (2, 1) ∧
    see (fun t => getV t 15) (start 0x8F1E [(15, 0x80), (1, 0x41)]) = some 0x82 ∧
    see (fun t => getV t 15) (start 0x8FFE [(15, 0x80)]) = some 2 := by decide

/-- V-ALU-22, V-ALU-23. -/
theorem test_rnd :
    see (fun t => (getV t 13, t.randIn, t.draws)) (supplyRand 0xA7 (start 0xCD0F [])) =
      some (0x07, none, 1) ∧
    see (fun t => getV t 1) (supplyRand 0xFF (start 0xC1F0 [])) = some 0xF0 := by decide

/-- V-ALU-24 with nothing known of `rand_in`: an AND with 0 is 0 whatever the free byte (R112). -/
theorem test_rnd_free_masked (s : State) : seeExec (fun t => getV t 1) (.rnd 1 0) s = some 0 := by
  simp [seeExec, exec, execRnd, advance, jumpTo, countDraw, getV, setV]

/-! ### Index register and memory -/

/-- V-MEM-1. -/
theorem test_ldI : see (fun t => t.index) (start 0xA300 []) = some 0x0300 := by decide

/-- V-MEM-3, V-MEM-4. -/
theorem test_addI :
    see (fun t => (t.index, getV t 15)) (setIndex (start 0xF31E [(3, 1)]) 0x0FFF) = some (0x1000, 0) ∧
    see (fun t => (t.index, getV t 15)) (setIndex (start 0xF31E [(3, 2)]) 0xFFFF) = some (0x0001, 0) := by
  decide

/-- S8, V-MEM-6. -/
theorem test_ldF :
    see (fun t => t.index) (start 0xF329 [(3, 0x0A)]) = some 0x0032 ∧
    see (fun t => t.index) (start 0xF329 [(3, 0xFF)]) = some 0x04FB := by decide

/-- S9. -/
theorem test_ldB :
    see (fun t => (memRead t 0x300, memRead t 0x301, memRead t 0x302))
      (setIndex (start 0xF033 [(0, 195)]) 0x0300) = some (1, 9, 5) := by decide

/-- V-MEM-8: the wrap. -/
theorem test_ldB_wraps :
    see (fun t => (memRead t 0xFFF, memRead t 0, memRead t 1, t.index))
      (setIndex (start 0xF333 [(3, 255)]) 0x0FFF) = some (2, 5, 5, 0x0FFF) := by decide

/-- V-MEM-11. -/
theorem test_stRegs_wraps :
    see (fun t => (memRead t 0xFFE, memRead t 0xFFF, memRead t 0, memRead t 1, t.index))
      (setIndex (start 0xF355 [(0, 0xA0), (1, 0xA1), (2, 0xA2), (3, 0xA3)]) 0x0FFE) =
      some (0xA0, 0xA1, 0xA2, 0xA3, 0x0FFE) := by decide

/-- V-MEM-9: inclusive of `Vx`, and no further. -/
theorem test_stRegs_v0_only :
    see (fun t => (memRead t 0x300, memRead t 0x301))
      (setIndex (start 0xF055 [(0, 0x77), (1, 0x88)]) 0x0300) = some (0x77, 0) := by decide

/-- V-MEM-13. -/
theorem test_ldRegs :
    see (fun t => (getV t 0, getV t 1, getV t 2, getV t 3, t.index))
      (cells [(0x300, 1), (0x301, 9), (0x302, 5)] (setIndex (start 0xF265 [(3, 0x44)]) 0x0300)) =
      some (1, 9, 5, 0x44, 0x0300) := by decide

/-! ### Display -/

/-- V-CLS-1. -/
theorem test_cls :
    see (fun t => (fbGet t 100, t.fbDirty, getV t 15)) (fbToggle (start 0x00E0 [(15, 7)]) 100) =
      some (false, true, 7) := by decide +kernel

/-- V-DRW-6: one pixel set, one erased. -/
theorem test_drw_collision :
    see (fun t => (pixelAt t 0 0, pixelAt t 1 0, getV t 15, t.fbDirty))
      (fbToggle (cells [(0x300, 0xC0)] (setIndex (start 0xD011 []) 0x0300)) 1) =
      some (true, false, 1, true) := by decide +kernel

/-- V-DRW-4: the third row wraps from row 31 to row 0. -/
theorem test_drw_wraps_rows :
    see (fun t => (fbGet t 1920, fbGet t 1985, fbGet t 2, getV t 15))
      (cells [(0x300, 0x80), (0x301, 0x40), (0x302, 0x20)]
        (setIndex (start 0xD013 [(1, 30)]) 0x0300)) = some (true, true, true, 0) := by decide +kernel

/-! ### Keys and timers -/

/-- V-KEY-4, V-KEY-2. -/
theorem test_skp :
    see (fun t => t.pc) (key 10 (start 0xE19E [(1, 0x1A)])) = some 0x0204 ∧
    see (fun t => t.pc) (start 0xE19E [(1, 5)]) = some 0x0202 := by decide

/-- V-KEY-5, V-KEY-3. -/
theorem test_sknp :
    see (fun t => t.pc) (key 10 (start 0xE1A1 [(1, 0x1A)])) = some 0x0202 ∧
    see (fun t => t.pc) (start 0xE1A1 [(1, 5)]) = some 0x0204 := by decide

/-- V-KEY-6, first step: no key, `pc` stays and the timer ticks. -/
theorem test_ldVxK_waits :
    see (fun t => (t.pc, getV t 3, t.delayTimer)) (setDelay (start 0xF30A [(3, 0x55)]) 2) =
      some (0x0200, 0x55, 1) := by decide

/-- V-KEY-8, first step: one key down, whatever `KEYWAIT_PICK` is. -/
theorem test_ldVxK_loads :
    see (fun t => (t.pc, getV t 0)) (key 4 (start 0xF00A [(0, 0x55)])) = some (0x0202, 4) := by decide

/-- V-KEY-6, V-KEY-7: the two values of `KEYWAIT_PICK`, keys 2 and 9 down. -/
theorem test_pickKey :
    pickKey .lowest 2 [9] = 2 ∧ pickKey .highest 2 [9] = 9 := by decide

/-- V-TMR-5: the value before the tick. -/
theorem test_ldVxDt :
    see (fun t => (getV t 2, t.delayTimer)) (setDelay (start 0xF207 []) 1) = some (1, 0) := by decide

/-- V-TMR-2, V-TMR-3. -/
theorem test_ldDtVx :
    see (fun t => t.delayTimer) (start 0xF115 [(1, 1)]) = some 0 ∧
    see (fun t => t.delayTimer) (start 0xF115 [(1, 255)]) = some 254 := by decide

/-- V-TMR-4. -/
theorem test_ldStVx :
    see (fun t => (t.soundTimer, soundActive t)) (start 0xF118 [(1, 2)]) = some (1, true) := by decide

/-! ### Witnesses: the hypotheses of the statements can be met

One theorem for each statement that has hypotheses, each named after its statement. -/

theorem witness_LaunchStateHoldsFontAndRom :
    (List.replicate 3584 (0x12 : Byte)).length ≤ 3584 ∧ ([] : List Byte).length ≤ 3584 ∧
    seeLaunch (fun s => (memRead s 0, memRead s 79, memRead s 80, memRead s 0x1FF, memRead s 0x200,
      memRead s 0x201, memRead s 0x202, memRead s 4095)) (launch Config.defaultFont [0x12, 0x34]) =
      some (0xF0, 0x80, 0, 0, 0x12, 0x34, 0, 0) := by
  refine ⟨by rw [List.length_replicate], by decide, by decide +kernel⟩

theorem witness_RomIsLaunchedExactlyWhenItFits :
    (∃ s, launch Config.defaultFont (List.replicate 3584 0) = .launched s) ∧
    launch Config.defaultFont (List.replicate 3585 0) = .romTooLarge 3585 := by
  constructor
  · exact ⟨_, by unfold launch loadRom; rw [if_neg (by rw [List.length_replicate]; decide)]⟩
  · unfold launch loadRom
    rw [if_pos (by rw [List.length_replicate]; decide), List.length_replicate]

theorem witness_EncodeOfDecodedWordIsTheWord :
    decode 0x5127 = .ok (.seReg 1 2 7) ∧ decode 0xFF65 = .ok (.ldRegs 15) := by decide

theorem witness_OpcodeMapSelectsTheInstruction :
    decode 0xD01F = .ok (.drw 0 1 15) ∧
    (0x5127 : Word) &&& (Instr.seReg 1 2 0).mask = (Instr.seReg 1 2 0).pattern := by decide

/-- A word inside and a word just outside each row of the table of R68. -/
theorem witness_UnrecognizedWordsAreExactlyTheTable :
    ((decode 0x00DF).toOption = none ∧ (decode 0x00E0).toOption ≠ none) ∧
    ((decode 0x8008).toOption = none ∧ (decode 0x8007).toOption ≠ none) ∧
    ((decode 0x800F).toOption = none ∧ (decode 0x800E).toOption ≠ none) ∧
    ((decode 0xE09D).toOption = none ∧ (decode 0xE09E).toOption ≠ none) ∧
    ((decode 0xF066).toOption = none ∧ (decode 0xF065).toOption ≠ none) := by decide

theorem witness_StepRunsTheDecodedInstruction :
    decode (fetchWord (start 0x8124 [])) = .ok (.addReg 1 2) := by decide

theorem witness_UnrecognizedWordIsAReportedNoOp :
    (∃ e, decode (fetchWord State.reset) = .error e) ∧
    ∃ e, decode (fetchWord (jumpTo (start 0x8018 []) 0xF200)) = .error e := by
  exact ⟨⟨_, rfl⟩, ⟨_, rfl⟩⟩

/-- One step for each of the four causes, and one with none. -/
theorem witness_DiagnosticsAreRaisedExactlyByTheirCauses :
    see (fun t => t.diag.map (fun d => d.code)) (start 0xE19F []) = some (some .unrecognizedOpcode) ∧
    see (fun t => t.diag.map (fun d => d.code)) (start 0x1200 []) = some (some .selfJump) ∧
    see (fun t => t.diag.map (fun d => d.code)) { start 0x2200 [] with sp := 16 } =
      some (some .stackOverflow) ∧
    see (fun t => t.diag.map (fun d => d.code)) (start 0x00EE []) = some (some .stackUnderflow) ∧
    see (fun t => t.diag.map (fun d => d.code)) { start 0x2200 [] with sp := 15 } = some none := by
  decide

/-- Each case of the two matches: Fx15, Fx18, and another instruction. -/
theorem witness_EveryStepTicksBothTimers :
    see (fun t => (t.delayTimer, t.soundTimer)) (setSound (start 0xF115 [(1, 9)]) 1) = some (8, 0) ∧
    see (fun t => (t.delayTimer, t.soundTimer)) (setDelay (start 0xF118 [(1, 9)]) 0) = some (0, 8) ∧
    see (fun t => (t.delayTimer, t.soundTimer)) (setDelay (start 0x8000 []) 255) = some (254, 0) := by
  decide

/-- S7, two of its steps: `delay_timer = 1` and two words 8000. -/
def twoNoOps : State := cells [(0x202, 0x80), (0x203, 0x00)] (setDelay (start 0x8000 []) 1)

theorem test_twoNoOps_next :
    see (fun t => decode (fetchWord t)) twoNoOps = some (.ok (.ldReg 0 0)) := by decide +kernel

theorem witness_DelayTimerCountsDownOverAnyRun :
    (∃ t, runsTo 2 twoNoOps t) ∧
    ∀ j < 2, ∀ u, runsTo j twoNoOps u → ∀ x, decode (fetchWord u) ≠ .ok (.ldDtVx x) := by
  refine ⟨⟨_, _, rfl, _, rfl, rfl⟩, ?_⟩
  intro j hj u hu x hx
  have hj' : j = 0 ∨ j = 1 := by omega
  rcases hj' with rfl | rfl
  · have h0 : decode (fetchWord twoNoOps) = .ok (.ldReg 0 0) := by decide +kernel
    rw [← show twoNoOps = u from hu, h0] at hx
    cases hx
  · obtain ⟨v, hv, hvu⟩ := hu
    have h1 := test_twoNoOps_next
    rw [← show v = u from hvu] at hx
    rw [see, hv] at h1
    rw [Option.some.inj h1] at hx
    cases hx

theorem witness_StepNeverClearsConsultsOrBlocks :
    (markDirty State.reset).fbDirty = true ∧
    see (fun t => t.halted) (start 0x1200 []) = some true ∧
    decode (fetchWord (start 0xF30A [])) = .ok (.ldVxK 3) ∧
    ∀ k, keyDown (start 0xF30A []) k = false := by decide

/-- A step that writes an entry, at both ends of the stack, and steps that move `sp` up and down. -/
theorem witness_CallStackChangesOnlyByCallAndReturn :
    see (fun t => (t.stack[0] != 0, t.sp != 0)) (start 0x2210 []) = some (true, true) ∧
    see (fun t => (t.stack[15] != 0, t.sp != 15)) { start 0x2210 [] with sp := 15 } =
      some (true, true) ∧
    see (fun t => t.sp != 1) { start 0x00EE [] with sp := 1 } = some true := by decide

/-- The cases of the flag-writing instructions (also LoadImmediateWritesTheByte, CopyRegisterWritesTheSource, SubtractWritesFlagThenDifference,
ReverseSubtractWritesFlagThenDifference, ShiftRightTakesFlagFromVxAndValueFromVy and
ShiftLeftTakesFlagFromVxAndValueFromVy): which of `x` and `y` is F. -/
theorem witness_AddRegisterWritesSumThenCarry :
    ((14 : Reg) ≠ 15 ∧ (0 : Reg) ≠ 15) ∧ (14 : Reg) ≠ 15 ∧ (15 : Reg) = 15 := by decide

/-- A register beside the destination (AddImmediateWrapsWithoutFlag,
LogicIsBitwiseWithoutFlag), the ends of a register range
(StoreRegistersWritesTheRange, LoadRegistersReadsTheRange), a bit outside an immediate
(RandomByteIsMaskedByTheImmediate), the last pixel (ClearScreenZeroesEveryPixel,
ResetValuesAreAsSpecified). -/
theorem witness_operandBounds :
    (15 : Reg) ≠ 14 ∧ (0 : Reg) ≤ 0 ∧ (15 : Reg) ≤ 15 ∧ ¬ (15 : Reg) ≤ 14 ∧
    (0x7F : Byte).getLsbD 7 = false ∧ 63 < 64 ∧ 31 < 32 := by decide

theorem witness_StraightLineInstructionsAdvanceByTwo :
    (Instr.rnd 15 0xFF).family = .alu ∧ (Instr.stRegs 15).family = .indexMemory ∧
    (Instr.drw 15 15 0).family = .display ∧
    (∃ x, Instr.ldVxDt 0 = .ldVxDt x ∨ Instr.ldVxDt 0 = .ldDtVx x ∨ Instr.ldVxDt 0 = .ldStVx x) := by
  decide

theorem witness_JumpDetectsSelfJump :
    ((0x200 : Addr12).toNat = State.reset.pc.toNat) ∧ ((0x201 : Addr12).toNat ≠ State.reset.pc.toNat) := by
  decide

theorem witness_CallPushesPcAndJumps :
    ({ State.reset with sp := 0 } : State).sp.val < 16 ∧
    ({ State.reset with sp := 15 } : State).sp.val < 16 ∧
    ({ State.reset with sp := 16 } : State).sp.val = 16 := by decide

theorem witness_ReturnPopsAndAddsTwo :
    ({ State.reset with sp := 1 } : State).sp.val = (0 : Fin 16).val + 1 ∧
    ({ State.reset with sp := 16 } : State).sp.val = (15 : Fin 16).val + 1 ∧
    State.reset.sp.val = 0 := by decide

/-- CALL 0x210 at 0x200, LD_B V0 at 0x210, RET at 0x212 (as program P2). -/
def callLdBRet : State :=
  setIndex (cells [(0x210, 0xF0), (0x211, 0x33), (0x212, 0x00), (0x213, 0xEE)] (start 0x2210 [])) 0x300

theorem witness_CallAndReturnPairUp :
    ∃ t u, decode (fetchWord callLdBRet) = .ok (.call 0x210) ∧ callLdBRet.sp.val < 16 ∧
      step callLdBRet = .next t ∧ HostMove.reset ∉ [HostMove.strobe] ∧
      session [HostMove.strobe] t = .next u ∧
      (∀ ms1 ms2 v, [HostMove.strobe] = ms1 ++ ms2 → session ms1 t = .next v →
        callLdBRet.sp.val < v.sp.val) ∧
      u.sp.val = callLdBRet.sp.val + 1 ∧ decode (fetchWord u) = .ok .ret := by
  refine ⟨_, _, rfl, by decide, rfl, by decide, rfl, ?_, rfl, rfl⟩
  intro ms1 ms2 v h hv
  rcases List.append_eq_singleton_iff.mp h.symm with ⟨rfl, _⟩ | ⟨rfl, _⟩ <;> cases hv <;> decide

/-- V-STEP's 6A55 stored over the next word. -/
def storeNext : State := setIndex (start 0xF155 [(0, 0x6A), (1, 0x55)]) 0x0202

theorem witness_StoredWordIsFetchedAtOnce :
    (∃ t, exec (.stRegs 1) storeNext = .next t ∧ fetchWord t = 0x6A55) ∧
    (1 : Reg).val = (0 : Reg).val + 1 ∧ (1 : Reg) ≤ 1 ∧
    (storeNext.pc.toNat + 2) % 4096 = (storeNext.index.toNat + (0 : Reg).val) % 4096 := by
  refine ⟨⟨_, rfl, by decide⟩, by decide⟩

/-- A 1-row sprite 0x3C (S4). -/
def sprite : State := cells [(0x300, 0x3C)] (setIndex (start 0xD011 []) 0x0300)

/-- A covered pixel (bit 2 is the leftmost set bit of 0x3C, so column 2) that is 1, one that is 0,
and one not covered. -/
theorem witness_DrawInvertsCoveredPixelsAndReportsCollision :
    spriteCovers sprite 0 1 1 2 ∧ fbGet (fbToggle sprite 2) 2 = true ∧ fbGet sprite 2 = false ∧
    ¬ spriteCovers sprite 0 1 1 1 := by
  simp only [spriteCovers, spriteSets]
  decide +kernel

theorem witness_DrawingTwiceRestoresTheScreen :
    (0 : Reg) ≠ 15 ∧ (1 : Reg) ≠ 15 ∧ (∃ t, exec (.drw 0 1 1) sprite = .next t) ∧
    ∀ t, exec (.drw 0 1 1) sprite = .next t → ∃ u, exec (.drw 0 1 1) t = .next u :=
  ⟨by decide, by decide, ⟨_, rfl⟩, fun _ _ => ⟨_, rfl⟩⟩

theorem witness_OnlyDisplayInstructionsTouchTheFramebuffer :
    (∃ t, step (start 0x8120 []) = .next t) ∧
    ∀ i, decode (fetchWord (start 0x8120 [])) = .ok i → i.family ≠ .display := by
  refine ⟨⟨_, rfl⟩, ?_⟩
  intro i h
  cases h
  decide

theorem witness_KeySkipsTestTheNamedKey :
    (15 : Key).val = (getV (start 0xE19E [(1, 0xFF)]) 1).toNat % 16 ∧
    (0 : Key).val = (getV (start 0xE19E [(1, 0x10)]) 1).toNat % 16 := by decide

theorem witness_KeyWaitLoadsAPressedKey :
    (∀ k, keyDown State.reset k = false) ∧ (∃ k, keyDown (key 0 State.reset) k = true) ∧
    (∃ k, keyDown (key 15 State.reset) k = true) ∧
    (Config.keywaitPick = .lowest ∨ Config.keywaitPick = .highest) := by
  refine ⟨by decide, by decide, by decide, ?_⟩
  cases Config.keywaitPick <;> simp

theorem witness_ControlFlowFrame :
    (Instr.call 0x210).family = .flow ∧ (∃ t, exec (.call 0x210) State.reset = .next t) ∧
    ¬ mayWrite (.call 0x210) State.reset (.stackEntry 1) := by
  refine ⟨rfl, ⟨_, rfl⟩, ?_⟩
  simp [mayWrite, State.reset]

theorem witness_ArithmeticFrame :
    (Instr.addReg 1 2).family = .alu ∧ (∃ t, exec (.addReg 1 2) State.reset = .next t) ∧
    ¬ mayWrite (.addReg 1 2) State.reset (.reg 2) := by
  refine ⟨rfl, ⟨_, rfl⟩, ?_⟩
  simp only [mayWrite]
  decide

/-- The cells beside the stored ones, at the wrap. -/
theorem witness_IndexAndMemoryFrame :
    (Instr.ldB 0).family = .indexMemory ∧
    (∃ t, exec (.ldB 0) (setIndex State.reset 0x0FFE) = .next t) ∧
    ¬ mayWrite (.ldB 0) (setIndex State.reset 0x0FFE) (.cell 1) ∧
    ¬ mayWrite (.ldB 0) (setIndex State.reset 0x0FFE) (.cell 0xFFD) := by
  refine ⟨rfl, ⟨_, rfl⟩, ?_, ?_⟩ <;> simp only [mayWrite] <;> decide

theorem witness_DisplayFrame :
    (Instr.drw 0 1 1).family = .display ∧ (∃ t, exec (.drw 0 1 1) sprite = .next t) ∧
    ¬ mayWrite (.drw 0 1 1) sprite (.pixel 1) := by
  refine ⟨rfl, ⟨_, rfl⟩, ?_⟩
  simp only [mayWrite, spriteCovers, spriteSets]
  decide

theorem witness_KeysAndTimersFrame :
    (Instr.ldVxK 3).family = .keysTimers ∧ (∃ t, exec (.ldVxK 3) State.reset = .next t) ∧
    ¬ mayWrite (.ldVxK 3) State.reset (.reg 3) := by
  refine ⟨rfl, ⟨_, rfl⟩, ?_⟩
  simp only [mayWrite]
  decide

/-- The invariant holds in a state that has run: one self-jump. -/
theorem witness_EveryStepKeepsTheInvariant :
    ∃ s t, StateInv s ∧ step s = .next t ∧ t.halted = true := by
  refine ⟨start 0x1200 [], _, ⟨by decide, by decide, by decide, by decide, ?_, ?_⟩, rfl, rfl⟩
  · intro d hd; cases hd
  · intro d hd; cases hd

theorem witness_EverySessionKeepsTheInvariant :
    (∃ s, launch Config.defaultFont [0x12, 0x00] = .launched s) ∧
    HostMove.reset ∉ [HostMove.strobe, HostMove.randIn 7, HostMove.fbDirtyClear] := by
  exact ⟨⟨_, rfl⟩, by decide⟩

end Sys2Proof.Tests
end

/-! The laws of execution: what each branching instruction and each step can do, that every step
answers, and what execution does not depend on (40_step.md R80 to R85, 10_state.md R20, R22). -/

namespace Sys2Proof.Machine

open Sys2Proof

/-! ### What a step, and each instruction that branches, can do

One inversion lemma each: if it answers a state, that state is one of these. -/

section
variable {s t u : State}

/-- A push that answers: an entry was free, and this is the state. -/
theorem pushPc_some (h : pushPc s = some u) : ∃ hfree : s.sp.val < 16,
    u = { s with stack := s.stack.set s.sp.val s.pc, sp := ⟨s.sp.val + 1, Nat.succ_lt_succ hfree⟩ } := by
  obtain ⟨hfree, hpush⟩ | ⟨-, hpush⟩ := pushPc_cases s <;> rw [hpush] at h <;> cases h
  exact ⟨hfree, rfl⟩

/-- A pop that answers: an entry was live, and this is the state. -/
theorem popPc_some {a : Word} (h : popPc s = some (a, u)) : ∃ hlive : 0 < s.sp.val,
    u = { s with sp := ⟨s.sp.val - 1, by omega⟩ } := by
  obtain ⟨hlive, hpop⟩ | ⟨-, hpop⟩ := popPc_cases s <;> rw [hpop] at h <;> cases h
  exact ⟨hlive, rfl⟩

theorem exec_ret_cases (h : exec .ret s = .next t) :
    (∃ a u, popPc s = some (a, u) ∧ t = jumpTo u (a + 2)) ∨
      (s.sp.val = 0 ∧ t = reportAndIgnore .stackUnderflow s) := by
  simp only [exec, execRet] at h
  obtain ⟨hlive, hpop⟩ | ⟨hempty, hpop⟩ := popPc_cases s <;> rw [hpop] at h <;> cases h
  · exact .inl ⟨_, _, hpop, rfl⟩
  · exact .inr ⟨hempty, rfl⟩

theorem exec_call_cases {nnn : Addr12} (h : exec (.call nnn) s = .next t) :
    (∃ u, pushPc s = some u ∧ t = jumpTo u (zextAddr nnn)) ∨
      (s.sp.val = 16 ∧ t = reportAndIgnore .stackOverflow s) := by
  simp only [exec, execCall] at h
  obtain ⟨hfree, hpush⟩ | ⟨hfull, hpush⟩ := pushPc_cases s <;> rw [hpush] at h <;> cases h
  · exact .inl ⟨_, hpush, rfl⟩
  · exact .inr ⟨hfull, rfl⟩

theorem exec_jp_cases {nnn : Addr12} (h : exec (.jp nnn) s = .next t) :
    (zextAddr nnn = s.pc ∧ t = jumpTo (selfJump s) (zextAddr nnn)) ∨
      (zextAddr nnn ≠ s.pc ∧ t = jumpTo s (zextAddr nnn)) := by
  simp only [exec, execJp] at h
  split at h <;> cases h
  · exact .inl ⟨‹_›, rfl⟩
  · exact .inr ⟨‹_›, rfl⟩

theorem exec_ldVxK_cases {x : Reg} (h : exec (.ldVxK x) s = .next t) :
    (pressedKeys s = [] ∧ t = jumpTo s s.pc) ∨
      ∃ k ks, pressedKeys s = k :: ks ∧
        t = advance (setV s x (byteOfKey (pickKey Config.keywaitPick k ks))) := by
  simp only [exec, execLdVxK] at h
  split at h <;> cases h
  · exact .inl ⟨‹_›, rfl⟩
  · exact .inr ⟨_, _, ‹_›, rfl⟩

end

/-- The draw is one pass over the sprite's pixels, after `VF` is cleared (44_display.md R131). -/
theorem exec_drw (x y : Reg) (n : Fin 16) (s : State) :
    exec (.drw x y n) s = .next (advance (markDirty
      ((spritePixels s (getV s x) (getV s y) s.index.toNat n.val).foldl hitPixel
        (setFlag s false)))) := by
  show execDrw x y n s = _
  unfold execDrw
  simp only [foldl_drawRow]
  rfl

/-! ### Every instruction and every step answers a next state (40_step.md R85) -/

theorem exec_answers (i : Instr) (s : State) : ∃ t, exec i s = .next t := by
  cases i with
  | ret =>
    obtain ⟨hlive, hpop⟩ | ⟨-, hpop⟩ := popPc_cases s <;> exact ⟨_, by rw [exec, execRet, hpop]⟩
  | call nnn =>
    obtain ⟨hfree, hpush⟩ | ⟨-, hpush⟩ := pushPc_cases s <;> exact ⟨_, by rw [exec, execCall, hpush]⟩
  | ldVxK x =>
    cases hkeys : pressedKeys s <;> exact ⟨_, by rw [exec, execLdVxK, hkeys]⟩
  | _ => exact ⟨_, rfl⟩

theorem execute_answers (d : Except DecodeReject Instr) (s : State) :
    ∃ t, execute d s = .next t := by
  cases d with
  | ok i => exact exec_answers i s
  | error e => exact ⟨_, rfl⟩

/-- A step is the execute phase between the fetch and the tick. -/
theorem step_of_execute {s u : State}
    (h : execute (decode (fetchWord s)) (latchFetch s) = .next u) :
    step s = .next (finishStep u) := by
  rw [step, h]

theorem step_answers (s : State) : ∃ t, step s = .next t := by
  obtain ⟨u, hu⟩ := execute_answers (decode (fetchWord s)) (latchFetch s)
  exact ⟨_, step_of_execute hu⟩

theorem step_cases {s t : State} (h : step s = .next t) :
    ∃ u, execute (decode (fetchWord s)) (latchFetch s) = .next u ∧ t = finishStep u := by
  obtain ⟨u, hu⟩ := execute_answers (decode (fetchWord s)) (latchFetch s)
  rw [step_of_execute hu] at h
  cases h
  exact ⟨u, hu, rfl⟩

/-! ### The canonical memory list -/

theorem exec_keeps_memory_wf {i : Instr} {s t : State} (h : exec i s = .next t)
    (hm : s.memory.wf) : t.memory.wf := by
  cases i with
  | ldB x => cases h; exact wf_storeBcd s (getV s x) hm
  | stRegs x => cases h; exact wf_foldl_storeReg (regsUpTo x) s hm
  | ldRegs x =>
    cases h
    rw [foldl_loadReg_eq]
    exact hm
  | drw x y n =>
    rw [exec_drw] at h
    cases h
    rw [foldl_hitPixel_eq]
    exact hm
  | ret =>
    obtain ⟨a, u, hpop, rfl⟩ | ⟨-, rfl⟩ := exec_ret_cases h
    · obtain ⟨-, rfl⟩ := popPc_some hpop
      exact hm
    · exact hm
  | call nnn =>
    obtain ⟨u, hpush, rfl⟩ | ⟨-, rfl⟩ := exec_call_cases h
    · obtain ⟨-, rfl⟩ := pushPc_some hpush
      exact hm
    · exact hm
  | jp nnn => obtain ⟨-, rfl⟩ | ⟨-, rfl⟩ := exec_jp_cases h <;> exact hm
  | ldVxK x => obtain ⟨-, rfl⟩ | ⟨k, ks, -, rfl⟩ := exec_ldVxK_cases h <;> exact hm
  | _ => cases h; exact hm

theorem execute_keeps_memory_wf {d : Except DecodeReject Instr} {s t : State}
    (h : execute d s = .next t) (hm : s.memory.wf) : t.memory.wf := by
  cases d with
  | ok i => exact exec_keeps_memory_wf h hm
  | error e => cases h; exact hm

/-! ### Independence of `sound_timer` (10_state.md R20)

Every operation does the same whatever `sound_timer` holds. -/

theorem popPc_setSound (s : State) (w : Word) :
    popPc (setSound s w) = (popPc s).map fun p => (p.1, setSound p.2 w) := by
  by_cases h : 0 < s.sp.val <;> simp [popPc, setSound, h]

theorem pushPc_setSound (s : State) (w : Word) :
    pushPc (setSound s w) = (pushPc s).map fun t => setSound t w := by
  by_cases h : s.sp.val < 16 <;> simp [pushPc, setSound, h]

theorem hitPixel_setSound (s : State) (w : Word) (p : Nat) :
    hitPixel (setSound s w) p = setSound (hitPixel s p) w := by
  unfold hitPixel
  rw [fbGet_setSound]
  split <;> rfl

/-- Changing `sound_timer` before an instruction changes at most `sound_timer` after it. -/
theorem exec_setSound {i : Instr} {s t : State} (h : exec i s = .next t) (w : Word) :
    ∃ u, exec i (setSound s w) = .next (setSound t u) := by
  cases i with
  | ret =>
    refine ⟨w, ?_⟩
    simp only [exec, execRet, popPc_setSound] at h ⊢
    cases hpop : popPc s <;> rw [hpop] at h <;> cases h <;> rfl
  | call nnn =>
    refine ⟨w, ?_⟩
    simp only [exec, execCall, pushPc_setSound] at h ⊢
    cases hpush : pushPc s <;> rw [hpush] at h <;> cases h <;> rfl
  | jp nnn =>
    refine ⟨w, ?_⟩
    by_cases hself : zextAddr nnn = s.pc <;>
      simp only [exec, execJp, setSound_pc, hself, if_true, if_false] at h ⊢ <;> cases h <;> rfl
  | ldVxK x =>
    refine ⟨w, ?_⟩
    have hsame : pressedKeys (setSound s w) = pressedKeys s := rfl
    simp only [exec, execLdVxK, hsame] at h ⊢
    cases hkeys : pressedKeys s <;> rw [hkeys] at h <;> cases h <;> rfl
  | stRegs x =>
    cases h
    refine ⟨w, ?_⟩
    show Host.Outcome.next (advance ((regsUpTo x).foldl storeReg (setSound s w))) = _
    rw [List.foldl_hom (setSound · w) (g₁ := storeReg) (fun _ _ => rfl)]
    rfl
  | ldRegs x =>
    cases h
    refine ⟨w, ?_⟩
    show Host.Outcome.next (advance ((regsUpTo x).foldl loadReg (setSound s w))) = _
    rw [List.foldl_hom (setSound · w) (g₁ := loadReg) (fun _ _ => rfl)]
    rfl
  | drw x y n =>
    rw [exec_drw] at h
    cases h
    refine ⟨w, ?_⟩
    have hflag : setFlag (setSound s w) false = setSound (setFlag s false) w := rfl
    rw [exec_drw, hflag, List.foldl_hom (setSound · w) (fun s p => hitPixel_setSound s w p)]
    rfl
  | ldStVx x => cases h; exact ⟨zextByte (getV s x), rfl⟩
  | _ => cases h; exact ⟨w, rfl⟩

theorem execute_setSound {d : Except DecodeReject Instr} {s t : State}
    (h : execute d s = .next t) (w : Word) :
    ∃ u, execute d (setSound s w) = .next (setSound t u) := by
  cases d with
  | ok i => exact exec_setSound h w
  | error e => cases h; exact ⟨w, rfl⟩

theorem step_setSound {s t : State} (h : step s = .next t) (w : Word) :
    ∃ u, step (setSound s w) = .next (setSound t u) := by
  obtain ⟨t', ht', rfl⟩ := step_cases h
  obtain ⟨u, hu⟩ := execute_setSound ht' w
  exact ⟨tickDown u, step_of_execute (s := setSound s w) (u := setSound t' u) hu⟩

/-- The fetch replaces `current_opcode` before anything reads it (10_state.md R22). -/
theorem step_currentOpcode (s : State) (w : Word) : step { s with currentOpcode := w } = step s :=
  rfl

end Sys2Proof.Machine

namespace Sys2Proof.Proofs

open Sys2Proof.Machine

/-- Settles O17: the fetch overwrites `current_opcode`, and `sound_timer` goes through every
operation unread. -/
theorem currentOpcodeAndSoundTimerAreNeverRead :
    Obligations.CurrentOpcodeAndSoundTimerAreNeverRead :=
  fun s w => ⟨step_currentOpcode s w, fun _ h => step_setSound h w⟩

end Sys2Proof.Proofs

/-! The access summary (10_state.md R28): every instruction writes only what its row lists. -/

namespace Sys2Proof.Safety

open Sys2Proof Sys2Proof.Machine

/-! ### Agreement on a component, through each operation of the machine

Each lemma says which component its operation can change; every other one agrees after it if it
agreed before. A frame is the chain of the instruction's operations. -/

section
variable {c : Component} {s t : State}

theorem sameAt.refl (c : Component) (s : State) : sameAt c s s := by
  cases c <;> simp [sameAt]

/-- `pc` is no component. -/
theorem sameAt.jumpTo (h : sameAt c s t) (a : Word) : sameAt c s (jumpTo t a) := by
  cases c <;> exact h

theorem sameAt.setV (h : sameAt c s t) {x : Reg} (hx : c ≠ .reg x) (b : Byte) :
    sameAt c s (setV t x b) := by
  cases c with
  | reg r =>
    have hr : r ≠ x := fun e => hx (congrArg _ e)
    exact (getV_setV t x r b).trans (if_neg hr) |>.trans h
  | _ => exact h

theorem sameAt.setIndex (h : sameAt c s t) (hc : c ≠ .index) (a : Word) :
    sameAt c s (setIndex t a) := by
  cases c with
  | index => exact absurd rfl hc
  | _ => exact h

theorem sameAt.setDelay (h : sameAt c s t) (hc : c ≠ .delayTimer) (a : Word) :
    sameAt c s (setDelay t a) := by
  cases c with
  | delayTimer => exact absurd rfl hc
  | _ => exact h

theorem sameAt.setSound (h : sameAt c s t) (hc : c ≠ .soundTimer) (a : Word) :
    sameAt c s (setSound t a) := by
  cases c with
  | soundTimer => exact absurd rfl hc
  | _ => exact h

theorem sameAt.countDraw (h : sameAt c s t) (hc : c ≠ .draws) : sameAt c s (countDraw t) := by
  cases c with
  | draws => exact absurd rfl hc
  | _ => exact h

theorem sameAt.markDirty (h : sameAt c s t) (hc : c ≠ .fbDirty) : sameAt c s (markDirty t) := by
  cases c with
  | fbDirty => exact absurd rfl hc
  | _ => exact h

theorem sameAt.fbClear (h : sameAt c s t) (hc : ∀ p, c ≠ .pixel p) : sameAt c s (fbClear t) := by
  cases c with
  | pixel p => exact absurd rfl (hc p)
  | _ => exact h

theorem sameAt.fbToggle (h : sameAt c s t) {i : Nat} (hi : i < Config.fbPixels)
    (hc : c ≠ .pixel i) : sameAt c s (fbToggle t i) := by
  cases c with
  | pixel p =>
    have hp : p ≠ i := fun e => hc (e ▸ rfl)
    simpa [sameAt, fbGet_fbToggle_apply _ _ _ hi, hp] using h
  | _ => exact h

theorem sameAt.raiseDiag (h : sameAt c s t) (hc : c ≠ .diagnostics) (code : DiagCode) :
    sameAt c s (raiseDiag code t) := by
  cases c with
  | diagnostics => exact absurd rfl hc
  | _ => exact h

theorem sameAt.setHalted (h : sameAt c s t) (hc : c ≠ .halted) (b : Bool) :
    sameAt c s { t with halted := b } := by
  cases c with
  | halted => exact absurd rfl hc
  | _ => exact h

theorem sameAt.memWrite (h : sameAt c s t) {a : Nat}
    (hc : ∀ k, c = .cell k → cellOf k ≠ cellOf a) (b : Byte) : sameAt c s (memWrite t a b) := by
  cases c with
  | cell k => exact (memRead_memWrite t a k b).trans (if_neg (hc k rfl)) |>.trans h
  | _ => exact h

/-- A loop keeps a component that every iteration of it keeps. -/
theorem sameAt.foldl {α : Type} {f : State → α → State} {l : List α} (h : sameAt c s t)
    (hf : ∀ a ∈ l, ∀ u, sameAt c s u → sameAt c s (f u a)) : sameAt c s (l.foldl f t) := by
  induction l generalizing t with
  | nil => exact h
  | cons a l ih =>
    exact ih (hf a (by simp) t h) fun b hb => hf b (by simp [hb])

theorem sameAt.hitPixel (h : sameAt c s t) {i : Nat} (hi : i < Config.fbPixels)
    (hf : c ≠ .reg flagReg) (hc : c ≠ .pixel i) : sameAt c s (hitPixel t i) := by
  unfold Machine.hitPixel
  split
  · exact (h.setV hf _).fbToggle hi hc
  · exact h.fbToggle hi hc

theorem sameAt.storeBcd (h : sameAt c s t)
    (hc : ∀ k < 3, ∀ a, c = .cell a → cellOf a ≠ cellOf (effAddr t k)) (b : Byte) :
    sameAt c s (storeBcd t b) :=
  ((h.memWrite (hc 0 (by decide)) _).memWrite (hc 1 (by decide)) _).memWrite (hc 2 (by decide)) _

theorem sameAt.foldl_storeReg {l : List Reg} (h : sameAt c s t)
    (hc : ∀ i ∈ l, ∀ a, c = .cell a → cellOf a ≠ cellOf (effAddr t i.val)) :
    sameAt c s (l.foldl storeReg t) := by
  induction l generalizing t with
  | nil => exact h
  | cons i l ih => exact ih (h.memWrite (hc i (by simp)) _) fun j hj => hc j (by simp [hj])

/-- A push writes the entry `stack[sp]` and `sp`. -/
theorem sameAt_pushPc (h : pushPc s = some t) (hsp : c ≠ .stackPointer)
    (he : ∀ i : Fin 16, i.val = s.sp.val → c ≠ .stackEntry i) : sameAt c s t := by
  obtain ⟨hfree, rfl⟩ := pushPc_some h
  cases c with
  | stackPointer => exact absurd rfl hsp
  | stackEntry i =>
    have hi : s.sp.val ≠ i.val := fun e => he i e.symm rfl
    exact Vector.getElem_set_ne hfree i.isLt hi
  | diagnostics => exact ⟨rfl, rfl⟩
  | _ => rfl

/-- A pop writes `sp`; the entry it reads stays. -/
theorem sameAt_popPc {a : Word} (h : popPc s = some (a, t)) (hsp : c ≠ .stackPointer) :
    sameAt c s t := by
  obtain ⟨hlive, rfl⟩ := popPc_some h
  cases c with
  | stackPointer => exact absurd rfl hsp
  | diagnostics => exact ⟨rfl, rfl⟩
  | _ => rfl

end

/-! ### What an instruction does not write -/

theorem ne_of_not_mayWrite {i : Instr} {s : State} {c d : Component} (hc : ¬ mayWrite i s c)
    (hd : mayWrite i s d) : c ≠ d := fun e => hc (e ▸ hd)

/-- The statement's covered pixels are the draw's own list of pixels (44_display.md R131). -/
theorem spriteCovers_iff_mem (s : State) (x y : Reg) (n : Fin 16) (p : Nat) :
    spriteCovers s x y n p ↔ p ∈ spritePixels s (getV s x) (getV s y) s.index.toNat n.val :=
  (mem_spritePixels s (getV s x) (getV s y) s.index.toNat n.val p).symm

/-! ### The frames, family by family -/

theorem framed_of_flow {i : Instr} (hi : i.family = .flow) : framed i := by
  intro s t c h hc
  have keep := sameAt.refl c s
  have ne {d} := ne_of_not_mayWrite (d := d) hc
  cases i with
  | ret =>
    obtain ⟨a, u, hpop, rfl⟩ | ⟨hempty, rfl⟩ := exec_ret_cases h
    · obtain ⟨hlive, -⟩ := popPc_some hpop
      exact (sameAt_popPc hpop (ne hlive)).jumpTo _
    · exact (keep.raiseDiag (ne hempty) _).jumpTo _
  | jp nnn =>
    obtain ⟨hself, rfl⟩ | ⟨-, rfl⟩ := exec_jp_cases h
    · exact ((keep.setHalted (ne hself) _).raiseDiag (ne hself) _).jumpTo _
    · exact keep.jumpTo _
  | call nnn =>
    obtain ⟨u, hpush, rfl⟩ | ⟨hfull, rfl⟩ := exec_call_cases h
    · obtain ⟨hfree, -⟩ := pushPc_some hpush
      exact (sameAt_pushPc hpush (ne hfree) fun e he => ne he).jumpTo _
    · exact (keep.raiseDiag (ne hfull) _).jumpTo _
  | jpV0 | seImm | sneImm | seReg | sneReg => cases h; exact keep.jumpTo _
  | _ => cases hi

theorem framed_of_alu {i : Instr} (hi : i.family = .alu) : framed i := by
  intro s t c h hc
  have keep := sameAt.refl c s
  have ne {d} := ne_of_not_mayWrite (d := d) hc
  cases i with
  | ldImm x | addImm x | ldReg x | or x | and x | xor x =>
    cases h
    exact (keep.setV (ne (d := .reg x) rfl) _).jumpTo _
  | addReg x =>
    cases h
    exact ((keep.setV (ne (d := .reg x) (Or.inl rfl)) _).setV (ne (Or.inr rfl)) _).jumpTo _
  | sub x | shr x | subn x | shl x =>
    cases h
    exact ((keep.setV (ne (Or.inr rfl)) _).setV (ne (d := .reg x) (Or.inl rfl)) _).jumpTo _
  | rnd x =>
    cases h
    exact ((keep.setV (ne (d := .reg x) rfl) _).countDraw (ne trivial)).jumpTo _
  | _ => cases hi

theorem framed_of_indexMemory {i : Instr} (hi : i.family = .indexMemory) : framed i := by
  intro s t c h hc
  have keep := sameAt.refl c s
  have ne {d} := ne_of_not_mayWrite (d := d) hc
  cases i with
  | ldI | addI | ldF => cases h; exact (keep.setIndex (ne trivial) _).jumpTo _
  | ldB x =>
    cases h
    exact (keep.storeBcd (fun k hk a ha e => ne (d := .cell a) ⟨k, hk, e⟩ ha) _).jumpTo _
  | stRegs x =>
    cases h
    refine (keep.foldl_storeReg fun i hi a ha e => ?_).jumpTo _
    exact ne (d := .cell a) ⟨i.val, (mem_regsUpTo x i).mp hi, e⟩ ha
  | ldRegs x =>
    cases h
    refine (keep.foldl fun i hi u hu => ?_).jumpTo _
    exact hu.setV (ne ((mem_regsUpTo x i).mp hi)) _
  | _ => cases hi

theorem framed_of_display {i : Instr} (hi : i.family = .display) : framed i := by
  intro s t c h hc
  have keep := sameAt.refl c s
  have ne {d} := ne_of_not_mayWrite (d := d) hc
  cases i with
  | cls =>
    cases h
    exact ((keep.fbClear fun p => ne trivial).markDirty (ne trivial)).jumpTo _
  | drw x y n =>
    rw [exec_drw] at h
    cases h
    have hf : c ≠ .reg flagReg := ne rfl
    refine (((keep.setV hf _).foldl fun p hp u hu => ?_).markDirty (ne trivial)).jumpTo _
    exact hu.hitPixel (spritePixels_lt _ _ _ _ _ p hp) hf (ne ((spriteCovers_iff_mem s x y n p).mpr hp))
  | _ => cases hi

theorem framed_of_keysTimers {i : Instr} (hi : i.family = .keysTimers) : framed i := by
  intro s t c h hc
  have keep := sameAt.refl c s
  have ne {d} := ne_of_not_mayWrite (d := d) hc
  cases i with
  | skp | sknp => cases h; exact keep.jumpTo _
  | ldVxDt x => cases h; exact (keep.setV (ne (d := .reg x) rfl) _).jumpTo _
  | ldDtVx x => cases h; exact (keep.setDelay (ne trivial) _).jumpTo _
  | ldStVx x => cases h; exact (keep.setSound (ne trivial) _).jumpTo _
  | ldVxK x =>
    obtain ⟨-, rfl⟩ | ⟨k, ks, hkeys, rfl⟩ := exec_ldVxK_cases h
    · exact keep.jumpTo _
    · have hk : keyDown s k = true := (mem_pressedKeys s k).mp (by simp [hkeys])
      exact (keep.setV (ne (d := .reg x) ⟨rfl, k, hk⟩) _).jumpTo _
  | _ => cases hi

/-- Every instruction writes only what its row of the access summary lists (10_state.md R28). -/
theorem framed_all (i : Instr) : framed i := by
  cases hi : i.family with
  | flow => exact framed_of_flow hi
  | alu => exact framed_of_alu hi
  | indexMemory => exact framed_of_indexMemory hi
  | display => exact framed_of_display hi
  | keysTimers => exact framed_of_keysTimers hi

end Sys2Proof.Safety

namespace Sys2Proof.Proofs

open Sys2Proof.Safety

/-- Settles O48: the frame of each flow instruction. -/
theorem controlFlowFrame : Obligations.ControlFlowFrame := fun _ => framed_of_flow

/-- Settles O49: the frame of each instruction of 42_alu.md. -/
theorem arithmeticFrame : Obligations.ArithmeticFrame := fun _ => framed_of_alu

/-- Settles O50: the stores and loads reach the cells and registers that `mayWrite` computes. -/
theorem indexAndMemoryFrame : Obligations.IndexAndMemoryFrame := fun _ => framed_of_indexMemory

/-- Settles O51: the draw touches only pixels of the sprite and the flag. -/
theorem displayFrame : Obligations.DisplayFrame := fun _ => framed_of_display

/-- Settles O52: the frame of each key and timer instruction. -/
theorem keysAndTimersFrame : Obligations.KeysAndTimersFrame := fun _ => framed_of_keysTimers

end Sys2Proof.Proofs

/-! The invariant of reachable states (10_state.md R27): diagnostics, timers, call stack, sessions. -/

namespace Sys2Proof.Safety

open Sys2Proof Sys2Proof.Machine

/-! ### Who may write a component: the access summary read by component -/

section
variable {i : Instr} {s : State}

theorem mayWrite_delayTimer (h : mayWrite i s .delayTimer) : ∃ x, i = .ldDtVx x := by
  cases i with
  | ldDtVx x => exact ⟨x, rfl⟩
  | _ => exact False.elim h

theorem mayWrite_soundTimer (h : mayWrite i s .soundTimer) : ∃ x, i = .ldStVx x := by
  cases i with
  | ldStVx x => exact ⟨x, rfl⟩
  | _ => exact False.elim h

theorem mayWrite_stackEntry {e : Fin 16} (h : mayWrite i s (.stackEntry e)) :
    (∃ nnn, i = .call nnn) ∧ e.val = s.sp.val := by
  cases i with
  | call nnn => exact ⟨⟨nnn, rfl⟩, h⟩
  | _ => exact False.elim h

theorem mayWrite_stackPointer (h : mayWrite i s .stackPointer) :
    (∃ nnn, i = .call nnn) ∧ s.sp.val < 16 ∨ i = .ret ∧ 0 < s.sp.val := by
  cases i with
  | call nnn => exact .inl ⟨⟨nnn, rfl⟩, h⟩
  | ret => exact .inr ⟨rfl, h⟩
  | _ => exact False.elim h

/-- What sets `halted` is reported (60_exceptions.md R152). -/
theorem mayWrite_diagnostics_of_halted (h : mayWrite i s .halted) : mayWrite i s .diagnostics := by
  cases i with
  | jp nnn => exact h
  | _ => exact False.elim h

end

/-! ### The call stack (10_state.md R17, R18) -/

/-- An entry that an instruction changes is the one a call pushes `pc0` to. -/
theorem exec_stackEntry_changed {i : Instr} {s t : State} {e : Fin 16} (h : exec i s = .next t)
    (hne : t.stack[e.val] ≠ s.stack[e.val]) :
    (∃ nnn, i = .call nnn) ∧ e.val = s.sp.val ∧ t.stack[e.val] = s.pc := by
  have hw := not_imp_comm.mp (framed_all i s t (.stackEntry e) h) hne
  obtain ⟨⟨nnn, rfl⟩, he⟩ := mayWrite_stackEntry hw
  refine ⟨⟨nnn, rfl⟩, he, ?_⟩
  obtain ⟨u, hpush, rfl⟩ | ⟨hfull, -⟩ := exec_call_cases h
  · obtain ⟨hfree, rfl⟩ := pushPc_some hpush
    simp [he]
  · omega

/-- `sp` is moved up by a call and down by a return, by one entry. -/
theorem exec_sp_changed {i : Instr} {s t : State} (h : exec i s = .next t) (hne : t.sp ≠ s.sp) :
    (∃ nnn, i = .call nnn) ∧ t.sp.val = s.sp.val + 1 ∨ i = .ret ∧ t.sp.val + 1 = s.sp.val := by
  have hw := not_imp_comm.mp (framed_all i s t .stackPointer h) hne
  obtain ⟨hcall, hfree⟩ | ⟨rfl, hlive⟩ := mayWrite_stackPointer hw
  · obtain ⟨nnn, rfl⟩ := hcall
    obtain ⟨u, hpush, rfl⟩ | ⟨hfull, -⟩ := exec_call_cases h
    · obtain ⟨-, rfl⟩ := pushPc_some hpush
      exact .inl ⟨⟨nnn, rfl⟩, rfl⟩
    · omega
  · obtain ⟨a, u, hpop, rfl⟩ | ⟨hempty, -⟩ := exec_ret_cases h
    · obtain ⟨-, rfl⟩ := popPc_some hpop
      exact .inr ⟨rfl, Nat.sub_add_cancel hlive⟩
    · omega

/-! ### The diagnostics of the execute phase and of the step (60_exceptions.md R150 to R154, R161) -/

/-- The cause of each diagnostic, for the decoder's answer `d` in state `s`
(60_exceptions.md R151 to R154). -/
def causes (d : Except DecodeReject Instr) (s : State) : DiagCode → Prop
  | .unrecognizedOpcode => ∃ e, d = .error e
  | .selfJump => ∃ nnn, d = .ok (.jp nnn) ∧ zextAddr nnn = s.pc
  | .stackOverflow => (∃ nnn, d = .ok (.call nnn)) ∧ s.sp.val = 16
  | .stackUnderflow => d = .ok .ret ∧ s.sp.val = 0

/-- From `s` to `t` no diagnostic is recorded and `halted` stays. -/
def recordsNothing (s t : State) : Prop :=
  t.diag = s.diag ∧ t.diagLog = s.diagLog ∧ t.halted = s.halted

/-- From `s` to `t` the one diagnostic `d` is recorded, and `halted` is set if it is a self-jump. -/
def records (d : Diag) (s t : State) : Prop :=
  t.diag = some d ∧ t.diagLog = s.diagLog ++ [d] ∧
    (t.halted = true ↔ s.halted = true ∨ d.code = .selfJump)

theorem genuine_of_causes {s : State} {w : Word} {code : DiagCode}
    (h : causes (decode w) s code) : genuine ⟨code, s.pc, w⟩ := by
  cases code with
  | unrecognizedOpcode => exact h
  | selfJump => exact h
  | stackOverflow => exact h.1
  | stackUnderflow => exact h.1

/-- An instruction may write the diagnostics exactly when one of the causes is there. -/
theorem mayWrite_diagnostics_iff {i : Instr} {s : State} :
    mayWrite i s .diagnostics ↔ ∃ code, causes (.ok i) s code := by
  constructor
  · intro h
    cases i with
    | ret => exact ⟨.stackUnderflow, rfl, h⟩
    | jp nnn => exact ⟨.selfJump, nnn, rfl, h⟩
    | call nnn => exact ⟨.stackOverflow, ⟨nnn, rfl⟩, h⟩
    | _ => exact False.elim h
  · rintro ⟨code, h⟩
    cases code with
    | unrecognizedOpcode => obtain ⟨e, he⟩ := h; cases he
    | selfJump => obtain ⟨nnn, hi, hself⟩ := h; cases hi; exact hself
    | stackOverflow => obtain ⟨⟨nnn, hi⟩, hfull⟩ := h; cases hi; exact hfull
    | stackUnderflow => obtain ⟨hi, hempty⟩ := h; cases hi; exact hempty

/-- An instruction whose cause is there records that diagnostic. -/
theorem exec_records {i : Instr} {s t : State} {code : DiagCode} (h : exec i s = .next t)
    (hc : causes (.ok i) s code) : records ⟨code, s.pc, s.currentOpcode⟩ s t := by
  cases code with
  | unrecognizedOpcode => obtain ⟨e, he⟩ := hc; cases he
  | selfJump =>
    obtain ⟨nnn, hi, hself⟩ := hc
    cases hi
    obtain ⟨-, rfl⟩ | ⟨hne, -⟩ := exec_jp_cases h
    · simp [records]
    · exact absurd hself hne
  | stackOverflow =>
    obtain ⟨⟨nnn, hi⟩, hfull⟩ := hc
    cases hi
    obtain ⟨u, hpush, -⟩ | ⟨-, rfl⟩ := exec_call_cases h
    · obtain ⟨hfree, -⟩ := pushPc_some hpush
      omega
    · simp [records]
  | stackUnderflow =>
    obtain ⟨hi, hempty⟩ := hc
    cases hi
    obtain ⟨a, u, hpop, -⟩ | ⟨-, rfl⟩ := exec_ret_cases h
    · obtain ⟨hlive, -⟩ := popPc_some hpop
      omega
    · simp [records]

theorem execute_diagnostics {d : Except DecodeReject Instr} {s t : State}
    (h : execute d s = .next t) :
    (∀ code, ¬ causes d s code) ∧ recordsNothing s t ∨
      ∃ code, causes d s code ∧ records ⟨code, s.pc, s.currentOpcode⟩ s t := by
  cases d with
  | error e =>
    cases h
    exact .inr ⟨.unrecognizedOpcode, ⟨e, rfl⟩, by simp [records]⟩
  | ok i =>
    by_cases hw : mayWrite i s .diagnostics
    · obtain ⟨code, hc⟩ := mayWrite_diagnostics_iff.mp hw
      exact .inr ⟨code, hc, exec_records h hc⟩
    · have hnone : ∀ code, ¬ causes (.ok i) s code :=
        fun code hc => hw (mayWrite_diagnostics_iff.mpr ⟨code, hc⟩)
      obtain ⟨hdiag, hlog⟩ := framed_all i s t .diagnostics h hw
      have hhalted := framed_all i s t .halted h fun hh => hw (mayWrite_diagnostics_of_halted hh)
      exact .inl ⟨hnone, hdiag, hlog, hhalted⟩

/-- The diagnostics of a step: none, or the one whose cause is there, with `pc0` and the word. -/
theorem step_diagnostics {s t : State} (h : step s = .next t) :
    ((∀ code, ¬ causes (decode (fetchWord s)) s code) ∧
        t.diag = none ∧ t.diagLog = s.diagLog ∧ t.halted = s.halted) ∨
      ∃ code, causes (decode (fetchWord s)) s code ∧ records ⟨code, s.pc, fetchWord s⟩ s t := by
  obtain ⟨u, hu, rfl⟩ := step_cases h
  obtain ⟨hnone, hkept⟩ | ⟨code, hc, hrec⟩ := execute_diagnostics hu
  · refine .inl ⟨fun code hc => hnone code ?_, hkept⟩
    cases code <;> exact hc
  · refine .inr ⟨code, ?_, hrec⟩
    cases code <;> exact hc

/-! ### The timers hold a byte (10_state.md R19, R20) -/

/-- `delay_timer` after the execute phase: loaded by Fx15, else kept. -/
theorem execute_delayTimer {d : Except DecodeReject Instr} {s t : State}
    (h : execute d s = .next t) :
    (∀ x, d ≠ .ok (.ldDtVx x)) ∧ t.delayTimer = s.delayTimer ∨
      ∃ x, d = .ok (.ldDtVx x) ∧ t.delayTimer = zextByte (getV s x) := by
  cases d with
  | error e => cases h; exact .inl ⟨nofun, rfl⟩
  | ok i =>
    by_cases hw : mayWrite i s .delayTimer
    · obtain ⟨x, rfl⟩ := mayWrite_delayTimer hw
      cases h
      exact .inr ⟨x, rfl, rfl⟩
    · exact .inl ⟨fun x hi => hw (by cases hi; trivial), framed_all i s t .delayTimer h hw⟩

/-- `sound_timer` after the execute phase: loaded by Fx18, else kept. -/
theorem execute_soundTimer {d : Except DecodeReject Instr} {s t : State}
    (h : execute d s = .next t) :
    (∀ x, d ≠ .ok (.ldStVx x)) ∧ t.soundTimer = s.soundTimer ∨
      ∃ x, d = .ok (.ldStVx x) ∧ t.soundTimer = zextByte (getV s x) := by
  cases d with
  | error e => cases h; exact .inl ⟨nofun, rfl⟩
  | ok i =>
    by_cases hw : mayWrite i s .soundTimer
    · obtain ⟨x, rfl⟩ := mayWrite_soundTimer hw
      cases h
      exact .inr ⟨x, rfl, rfl⟩
    · exact .inl ⟨fun x hi => hw (by cases hi; trivial), framed_all i s t .soundTimer h hw⟩

theorem tickDown_zextByte_le (b : Byte) : (tickDown (zextByte b)).toNat ≤ 255 := by
  have hbyte := b.isLt
  rw [tickDown_toNat, zextByte_toNat]
  omega

theorem tickDown_toNat_le (t : Word) : (tickDown t).toNat ≤ t.toNat := by
  rw [tickDown_toNat]
  exact Nat.sub_le _ _

/-! ### The invariant (10_state.md R27) -/

theorem StateInv.reset : StateInv State.reset where
  memory := Memory.wf_nil
  delay := by decide
  sound := by decide
  haltedReported := by simp [State.reset]
  logGenuine := by simp [State.reset]
  diagRecorded := by simp [State.reset]

/-- The invariant speaks of none of the inputs, nor of `fb_dirty` and the count of draws. -/
theorem StateInv.withPorts {s : State} (h : StateInv s) (keys : Vector Bool 16)
    (rand : Option Byte) (dirty : Bool) (draws : Nat) :
    StateInv { s with keyState := keys, randIn := rand, fbDirty := dirty, draws := draws } :=
  ⟨h.memory, h.delay, h.sound, h.haltedReported, h.logGenuine, h.diagRecorded⟩

theorem StateInv.memWrite {s : State} (h : StateInv s) (a : Nat) (b : Byte) :
    StateInv (memWrite s a b) :=
  ⟨wf_memWrite s a b h.memory, h.delay, h.sound, h.haltedReported, h.logGenuine, h.diagRecorded⟩

/-- Every step keeps the invariant (10_state.md R27). -/
theorem StateInv.step {s t : State} (h : StateInv s) (hst : step s = .next t) : StateInv t := by
  obtain ⟨u, hu, rfl⟩ := step_cases hst
  have hmemory : u.memory.wf := execute_keeps_memory_wf hu h.memory
  have hdelay : (tickDown u.delayTimer).toNat ≤ 255 := by
    obtain ⟨-, hkept⟩ | ⟨x, -, hloaded⟩ := execute_delayTimer hu
    · rw [hkept]
      exact (tickDown_toNat_le s.delayTimer).trans h.delay
    · rw [hloaded]
      exact tickDown_zextByte_le _
  have hsound : (tickDown u.soundTimer).toNat ≤ 255 := by
    obtain ⟨-, hkept⟩ | ⟨x, -, hloaded⟩ := execute_soundTimer hu
    · rw [hkept]
      exact (tickDown_toNat_le s.soundTimer).trans h.sound
    · rw [hloaded]
      exact tickDown_zextByte_le _
  obtain ⟨-, hdiag, hlog, hhalted⟩ | ⟨code, hcause, hdiag, hlog, hhalted⟩ := step_diagnostics hst
  · refine ⟨hmemory, hdelay, hsound, ?_, ?_, ?_⟩
    · rw [hhalted, hlog]
      exact h.haltedReported
    · rw [hlog]
      exact h.logGenuine
    · rw [hdiag]
      exact fun d hd => by cases hd
  · refine ⟨hmemory, hdelay, hsound, ?_, ?_, ?_⟩
    · rw [hhalted, hlog, h.haltedReported]
      simp [or_and_right, exists_or]
    · rw [hlog]
      intro d hd
      rcases List.mem_append.mp hd with hd | hd
      · exact h.logGenuine d hd
      · rw [List.mem_singleton.mp hd]
        exact genuine_of_causes hcause
    · rw [hdiag, hlog]
      intro d hd
      cases hd
      exact List.getLast?_concat

/-! ### Sessions (10_state.md R38) -/

/-- Nothing recorded is lost: a halted core stays halted and the log is only extended
(10_state.md R23, 60_exceptions.md R161). -/
def keepsRecord (s t : State) : Prop :=
  (s.halted = true → t.halted = true) ∧ s.diagLog <+: t.diagLog

theorem keepsRecord.refl (s : State) : keepsRecord s s := ⟨id, List.prefix_refl _⟩

theorem keepsRecord.trans {s t u : State} (h : keepsRecord s t) (h' : keepsRecord t u) :
    keepsRecord s u := ⟨h'.1 ∘ h.1, h.2.trans h'.2⟩

theorem keepsRecord_of_step {s t : State} (h : step s = .next t) : keepsRecord s t := by
  obtain ⟨-, -, hlog, hhalted⟩ | ⟨code, -, -, hlog, hhalted⟩ := step_diagnostics h
  · exact ⟨by simp [hhalted], by simp [hlog]⟩
  · exact ⟨fun hs => hhalted.mpr (.inl hs), by simp [hlog]⟩

/-- Every move answers, keeps the invariant and, if it is no reset, loses nothing recorded. -/
theorem applyMove_keeps {s : State} (m : HostMove) (h : StateInv s) :
    ∃ t, applyMove m s = .next t ∧ StateInv t ∧ (m ≠ .reset → keepsRecord s t) := by
  cases m with
  | keysIn keys =>
    exact ⟨_, rfl, h.withPorts keys s.randIn s.fbDirty s.draws, fun _ => keepsRecord.refl s⟩
  | randIn r =>
    exact ⟨_, rfl, h.withPorts s.keyState (some r) s.fbDirty s.draws, fun _ => keepsRecord.refl s⟩
  | fbDirtyClear =>
    exact ⟨_, rfl, h.withPorts s.keyState s.randIn false s.draws, fun _ => keepsRecord.refl s⟩
  | strobe =>
    obtain ⟨t, ht⟩ := step_answers s
    exact ⟨t, ht, h.step ht, fun _ => keepsRecord_of_step ht⟩
  | reset =>
    exact ⟨_, rfl, StateInv.reset.withPorts State.reset.keyState none false s.draws,
      fun hm => absurd rfl hm⟩

theorem session_cons {m : HostMove} {s t : State} (ms : List HostMove)
    (h : applyMove m s = .next t) : session (m :: ms) s = session ms t := by
  rw [session, h]

/-- A list of moves answers, keeps the invariant and, without a reset, loses nothing recorded. -/
theorem session_keeps {s : State} (ms : List HostMove) (h : StateInv s) :
    ∃ t, session ms s = .next t ∧ StateInv t ∧ (HostMove.reset ∉ ms → keepsRecord s t) := by
  induction ms generalizing s with
  | nil => exact ⟨s, rfl, h, fun _ => keepsRecord.refl s⟩
  | cons m ms ih =>
    obtain ⟨t, ht, hinv, hkeeps⟩ := applyMove_keeps m h
    obtain ⟨u, hu, huinv, hukeeps⟩ := ih hinv
    refine ⟨u, (session_cons ms ht).trans hu, huinv, fun hno => ?_⟩
    obtain ⟨hm, hms⟩ := not_or.mp (mt List.mem_cons.mpr hno)
    exact (hkeeps (Ne.symm hm)).trans (hukeeps hms)

theorem session_append {s t : State} (ms ms' : List HostMove) (h : session ms s = .next t) :
    session (ms ++ ms') s = session ms' t := by
  induction ms generalizing s with
  | nil => cases h; rfl
  | cons m ms ih =>
    cases hm : applyMove m s with
    | next u =>
      rw [session_cons ms hm] at h
      exact (session_cons (ms ++ ms') hm).trans (ih h)
    | fault r => cases r
    | refused r => rw [session, hm] at h; cases h

theorem StateInv.loadBytes {s : State} (base : Nat) (bs : List Byte) (h : StateInv s) :
    StateInv (loadBytes base bs s) := by
  induction bs generalizing base s with
  | nil => exact h
  | cons b bs ih => exact ih (base + 1) (h.memWrite base b)

/-- The launch state of every font and ROM has the invariant (70_reset_and_hazards.md R183). -/
theorem StateInv.launch {font : Vector Byte 80} {rom : List Byte} {s : State}
    (h : launch font rom = .launched s) : StateInv s := by
  unfold Machine.launch loadRom at h
  split at h <;> cases h
  exact (StateInv.reset.loadBytes _ _).loadBytes _ _

end Sys2Proof.Safety

namespace Sys2Proof.Proofs

open Sys2Proof Sys2Proof.Machine Sys2Proof.Safety

/-- Settles O54: the timers by the frame of the other instructions, the diagnostics by
`step_diagnostics`, the memory list by the canonical form of each store. -/
theorem everyStepKeepsTheInvariant : Obligations.EveryStepKeepsTheInvariant :=
  fun _ _ => StateInv.step

/-- Settles O55, by induction on the host's moves from the launch state. -/
theorem everySessionKeepsTheInvariant : Obligations.EverySessionKeepsTheInvariant := by
  intro font rom ms ms' s hlaunch
  obtain ⟨t, ht, htinv, -⟩ := session_keeps ms (StateInv.launch hlaunch)
  obtain ⟨u, hu, huinv, hkeeps⟩ := session_keeps ms' htinv
  refine ⟨t, u, ht, (session_append ms ms' ht).trans hu, htinv, huinv, fun hno => ?_⟩
  obtain ⟨hhalted, l, hl⟩ := hkeeps hno
  exact ⟨hhalted, l, hl.symm⟩

/-- Settles O18: the frame leaves the stack to 2nnn and 00EE, and a push is of `pc0`. -/
theorem callStackChangesOnlyByCallAndReturn :
    Obligations.CallStackChangesOnlyByCallAndReturn := by
  intro s t hst
  obtain ⟨u, hu, rfl⟩ := step_cases hst
  cases hd : decode (fetchWord s) with
  | error e =>
    rw [hd] at hu
    cases hu
    exact ⟨fun i hne => absurd (by simp) hne, fun hne => absurd (by simp) hne⟩
  | ok i =>
    rw [hd] at hu
    constructor
    · intro e hne
      obtain ⟨⟨nnn, rfl⟩, he, hpushed⟩ := exec_stackEntry_changed hu hne
      exact ⟨⟨nnn, rfl⟩, he, hpushed⟩
    · intro hne
      obtain ⟨⟨nnn, rfl⟩, hup⟩ | ⟨rfl, hdown⟩ := exec_sp_changed hu hne
      · exact .inl ⟨⟨nnn, rfl⟩, hup⟩
      · exact .inr ⟨rfl, hdown⟩

/-- Settles O53. -/
theorem resetSatisfiesTheInvariant : Obligations.ResetSatisfiesTheInvariant := StateInv.reset

/-- Settles O1: the reads of the empty memory list, of a zero framebuffer and of the replicated
registers, stack entries and key flags. -/
theorem resetValuesAreAsSpecified : Obligations.ResetValuesAreAsSpecified := by
  refine ⟨fun _ => rfl, fun c r _ _ => ?_, fun x => ?_, rfl, rfl, fun i => ?_, rfl, rfl, rfl,
    fun k => ?_, rfl, rfl, rfl⟩
  · exact BitVec.getLsbD_zero
  · exact Vector.getElem_replicate x.isLt
  · exact Vector.getElem_replicate i.isLt
  · exact Vector.getElem_replicate k.isLt

end Sys2Proof.Proofs

/-! The laws of the two-byte fetch and of the register store (20_memory.md R41, R42, R43, R52;
43_index_memory.md R124). -/

namespace Sys2Proof.Machine

open Sys2Proof

/-! ### Addresses modulo 4096 (20_memory.md R41) -/

/-- An access reduces its address itself, so one reduced before reaches the same cell. -/
@[simp] theorem memRead_mod (s : State) (a : Nat) : memRead s (a % 4096) = memRead s a :=
  congrArg s.memory.read (cellOf_cellOf a)

/-- Neighbours of one cell are one cell. -/
theorem cellOf_add_congr {a b : Nat} (h : cellOf a = cellOf b) (n : Nat) :
    cellOf (a + n) = cellOf (b + n) := Nat.ModEq.add_right n h

/-- Where the next instruction's first byte is: the 16-bit wrap of `pc` does not show in the cell,
65536 being a multiple of 4096. -/
theorem cellOf_pc_add_two (pc : Word) : cellOf (pc + 2).toNat = cellOf (pc.toNat + 2) :=
  Nat.mod_mod_of_dvd _ (by decide)

/-! ### The fetched word (20_memory.md R42) -/

/-- The first byte is the high byte. -/
theorem wordOfBytes_toNat (hi lo : Byte) :
    (wordOfBytes hi lo).toNat = hi.toNat * 256 + lo.toNat := by
  rw [wordOfBytes, BitVec.toNat_append, ← Nat.shiftLeft_add_eq_or_of_lt lo.isLt, Nat.shiftLeft_eq]

theorem fetchWord_toNat (s : State) :
    (fetchWord s).toNat =
      (memRead s s.pc.toNat).toNat * 256 + (memRead s (s.pc.toNat + 1)).toNat :=
  wordOfBytes_toNat _ _

/-! ### The register store, Fx55 (43_index_memory.md R124) -/

/-- `Fx55` always answers this state: the stores change nothing but memory, so `pc` ends 2 past
`pc0`. -/
theorem exec_stRegs (x : Reg) (s : State) :
    exec (.stRegs x) s = .next (jumpTo ((regsUpTo x).foldl storeReg s) (s.pc + 2)) := by
  have hpc : ((regsUpTo x).foldl storeReg s).pc = s.pc := by rw [foldl_storeReg_eq]
  show execStRegs x s = _
  rw [execStRegs, advance_eq, hpc]

/-- After the stores of `Fx55`, an address that reaches the cell of `V[i]` reads `V[i]`. -/
theorem memRead_storeRegs {x i : Reg} (s : State) (hi : i ≤ x) {a : Nat}
    (ha : cellOf a = cellOf (effAddr s i.val)) :
    memRead ((regsUpTo x).foldl storeReg s) a = getV s i :=
  memRead_foldl_storeReg_of_mem _ s a i (nodup_regsUpTo x) ((mem_regsUpTo x i).mpr hi) ha

end Sys2Proof.Machine

namespace Sys2Proof.Proofs

open Sys2Proof Sys2Proof.Machine

/-- Settles O9: the two bytes are joined big-endian, and each access reduces its own address. -/
theorem fetchIsBigEndianWithWrap : Obligations.FetchIsBigEndianWithWrap := by
  intro s
  rw [memRead_mod, memRead_mod]
  exact fetchWord_toNat s

/-- Settles O40: the fetch after Fx55 is at `pc0 + 2`, whose cell is that of `V[j]`, so the cell
after it is that of `V[j+1]`. -/
theorem storedWordIsFetchedAtOnce : Obligations.StoredWordIsFetchedAtOnce := by
  intro x j k s t ht hjk hkx hcell
  rw [exec_stRegs] at ht
  cases ht
  have hjx : j ≤ x := (Fin.le_def.mpr (hjk ▸ Nat.le_succ j.val)).trans hkx
  have hhigh : cellOf (s.pc + 2).toNat = cellOf (effAddr s j.val) :=
    (cellOf_pc_add_two s.pc).trans hcell
  have hlow : cellOf ((s.pc + 2).toNat + 1) = cellOf (effAddr s k.val) :=
    hjk ▸ cellOf_add_congr hhigh 1
  rw [fetchWord_toNat, jumpTo_pc, memRead_jumpTo, memRead_jumpTo, memRead_storeRegs s hjx hhigh,
    memRead_storeRegs s hkx hlow]

end Sys2Proof.Proofs

/-! The laws of decoding: the round trip with the encoder, the rows of the opcode map and the
unrecognized words (30_encoding.md R60 to R68). -/

namespace Sys2Proof.Laws.TableRow

/-- Every instruction's word matches its row: one lemma for each constructor, in their order. -/
theorem all (i : Instr) : Statement i :=
  Instr.casesOn (motive := Statement) i cls ret jp call seImm sneImm seReg ldImm addImm ldReg or and
    xor addReg sub shr subn shl sneReg ldI jpV0 rnd drw skp sknp ldVxDt ldVxK ldDtVx ldStVx addI ldF
    ldB stRegs ldRegs

end Sys2Proof.Laws.TableRow

namespace Sys2Proof

/-! ### The families whose sub-opcode is a field (30_encoding.md R63) -/

section
variable {w : Word}

theorem decode_family8 (hf : fieldFamily w = 0x8#4) : decode w = decodeFamily8 w := by
  simp [decode, hf]

theorem decode_familyE (hf : fieldFamily w = 0xE#4) : decode w = decodeFamilyE w := by
  simp [decode, hf]

theorem decode_familyF (hf : fieldFamily w = 0xF#4) : decode w = decodeFamilyF w := by
  simp [decode, hf]

end

/-! ### Decoding an encoded instruction (30_encoding.md R61, R64) -/

/-- The decoder reads the fields that the encoder's format wrote; in families 8, E and F one of them
is the sub-opcode. -/
theorem decode_encode (i : Instr) : decode (encode i) = .ok i := by
  cases i with
  | cls | ret => rfl
  | jp | call | ldI | jpV0 | seImm | sneImm | ldImm | addImm | rnd | seReg | sneReg | drw =>
    simp [encode, decode]
  | ldReg | or | and | xor | addReg | sub | shr | subn | shl =>
    simp [encode, decode_family8, decodeFamily8]
  | skp | sknp => simp [encode, decode_familyE, decodeFamilyE]
  | ldVxDt | ldVxK | ldDtVx | ldStVx | addI | ldF | ldB | stRegs | ldRegs =>
    simp [encode, decode_familyF, decodeFamilyF]

/-! ### Encoding a decoded word

The decoder's branch fixes the family, and in families 8, E and F the sub-opcode; the operands are
the word's other fields. -/

section
variable {w : Word} {fam n : BitVec 4} {nn : Byte} {i : Instr}

theorem encodeNNN_of_family (hf : fieldFamily w = fam) : encodeNNN fam (fieldNNN w) = w :=
  hf ▸ encodeNNN_fields w

theorem encodeXNN_of_family (hf : fieldFamily w = fam) :
    encodeXNN fam (fieldX w) (fieldNN w) = w :=
  hf ▸ encodeXNN_fields w

theorem encodeXYN_of_family (hf : fieldFamily w = fam) :
    encodeXYN fam (fieldX w) (fieldY w) (fieldN w) = w :=
  hf ▸ encodeXYN_fields w

theorem encodeXNN_of_subopcode (hf : fieldFamily w = fam) (hn : fieldNN w = nn) :
    encodeXNN fam (fieldX w) nn = w :=
  hn ▸ encodeXNN_of_family hf

theorem encodeXYN_of_subopcode (hf : fieldFamily w = fam) (hn : fieldN w = n) :
    encodeXYN fam (fieldX w) (fieldY w) n = w :=
  hn ▸ encodeXYN_of_family hf

theorem encode_of_decodeFamily0 (h : decodeFamily0 w = .ok i) : encode i = w := by
  unfold decodeFamily0 at h
  split at h
  case isTrue hw => cases h; exact hw.symm
  case isFalse =>
    split at h
    case isTrue hw => cases h; exact hw.symm
    case isFalse => cases h

theorem encode_of_decodeFamily8 (hf : fieldFamily w = 0x8#4) (h : decodeFamily8 w = .ok i) :
    encode i = w := by
  unfold decodeFamily8 at h
  split at h <;> cases h <;> exact encodeXYN_of_subopcode hf ‹_›

theorem encode_of_decodeFamilyE (hf : fieldFamily w = 0xE#4) (h : decodeFamilyE w = .ok i) :
    encode i = w := by
  unfold decodeFamilyE at h
  split at h <;> cases h <;> exact encodeXNN_of_subopcode hf ‹_›

theorem encode_of_decodeFamilyF (hf : fieldFamily w = 0xF#4) (h : decodeFamilyF w = .ok i) :
    encode i = w := by
  unfold decodeFamilyF at h
  split at h <;> cases h <;> exact encodeXNN_of_subopcode hf ‹_›

/-- The branches of the decoder are in the order of the families, `h_1` for family 0. -/
theorem encode_of_decode (h : decode w = .ok i) : encode i = w := by
  unfold decode at h
  split at h
  case h_1 => exact encode_of_decodeFamily0 h
  case h_9 hf => exact encode_of_decodeFamily8 hf h
  case h_15 hf => exact encode_of_decodeFamilyE hf h
  case h_16 hf => exact encode_of_decodeFamilyF hf h
  case h_2 hf | h_3 hf | h_11 hf | h_12 hf => cases h; exact encodeNNN_of_family hf
  case h_4 hf | h_5 hf | h_7 hf | h_8 hf | h_13 hf => cases h; exact encodeXNN_of_family hf
  case h_6 hf | h_10 hf => cases h; exact encodeXYN_of_family hf
  case h_14 hf =>
    cases h
    rw [encode, Reg.toField_ofField]
    exact encodeXYN_of_family hf
  case h_17 => cases h

end

/-! ### The rows of the opcode map (30_encoding.md R64)

A word that matches `i`'s row agrees with `encode i` on the bits of the mask, which hold the fields
that the decoder selects by. -/

section
variable {w v m : Word} {i : Instr}

/-- Words that agree under a mask agree in a field whose bits the mask holds. -/
theorem extractLsb'_eq_of_and_eq {start len : Nat} (h : w &&& m = v &&& m)
    (hm : m.extractLsb' start len = BitVec.allOnes len) :
    w.extractLsb' start len = v.extractLsb' start len := by
  have hfield := congrArg (BitVec.extractLsb' start len) h
  simpa [BitVec.extractLsb'_and, hm] using hfield

/-- Every mask holds the family nibble. -/
theorem extractLsb'_mask_family (i : Instr) : i.mask.extractLsb' 12 4 = BitVec.allOnes 4 := by
  cases i <;> simp [Instr.mask]

theorem and_mask_eq_encode (h : w &&& i.mask = i.pattern) :
    w &&& i.mask = encode i &&& i.mask :=
  h.trans (Laws.TableRow.all i).symm

/-- The fields by which the decoder selects are those of `encode i`, where the mask holds them. -/
theorem fieldFamily_eq_encode (h : w &&& i.mask = i.pattern) :
    fieldFamily w = fieldFamily (encode i) :=
  extractLsb'_eq_of_and_eq (and_mask_eq_encode h) (extractLsb'_mask_family i)

theorem fieldN_eq_encode (h : w &&& i.mask = i.pattern) (hm : i.mask = 0xF00F#16) :
    fieldN w = fieldN (encode i) :=
  extractLsb'_eq_of_and_eq (and_mask_eq_encode h) (hm ▸ by decide)

theorem fieldNN_eq_encode (h : w &&& i.mask = i.pattern) (hm : i.mask = 0xF0FF#16) :
    fieldNN w = fieldNN (encode i) :=
  extractLsb'_eq_of_and_eq (and_mask_eq_encode h) (hm ▸ by decide)

/-- The decoder selects by fields that the row fixes, so it answers an instruction of that row. -/
theorem decode_of_row (h : w &&& i.mask = i.pattern) :
    ∃ j, decode w = .ok j ∧ j.mask = i.mask ∧ j.pattern = i.pattern := by
  have hfam := fieldFamily_eq_encode h
  cases i with
  | cls | ret =>
    obtain rfl : w = _ := BitVec.and_allOnes.symm.trans h
    exact ⟨_, rfl, rfl, rfl⟩
  | jp | call | ldI | jpV0 | seImm | sneImm | ldImm | addImm | rnd | seReg | sneReg | drw =>
    simp only [encode, fieldFamily_encodeNNN, fieldFamily_encodeXNN, fieldFamily_encodeXYN] at hfam
    simp [decode, hfam, Instr.mask, Instr.pattern]
  | ldReg | or | and | xor | addReg | sub | shr | subn | shl =>
    have hn := fieldN_eq_encode h rfl
    simp only [encode, fieldFamily_encodeXYN, fieldN_encodeXYN] at hfam hn
    simp [decode_family8 hfam, decodeFamily8, hn, Instr.mask, Instr.pattern]
  | skp | sknp =>
    have hnn := fieldNN_eq_encode h rfl
    simp only [encode, fieldFamily_encodeXNN, fieldNN_encodeXNN] at hfam hnn
    simp [decode_familyE hfam, decodeFamilyE, hnn, Instr.mask, Instr.pattern]
  | ldVxDt | ldVxK | ldDtVx | ldStVx | addI | ldF | ldB | stRegs | ldRegs =>
    have hnn := fieldNN_eq_encode h rfl
    simp only [encode, fieldFamily_encodeXNN, fieldNN_encodeXNN] at hfam hnn
    simp [decode_familyF hfam, decodeFamilyF, hnn, Instr.mask, Instr.pattern]

end

/-! ### The unrecognized words (30_encoding.md R68) -/

section
variable (w : Word)

theorem fieldFamily_toNat : (fieldFamily w).toNat = w.toNat / 0x1000 := by
  have := w.isLt
  rw [fieldFamily, BitVec.extractLsb'_toNat, Nat.shiftRight_eq_div_pow]
  omega

theorem fieldN_toNat : (fieldN w).toNat = w.toNat % 16 := by
  simp [fieldN]

theorem fieldNN_toNat : (fieldNN w).toNat = w.toNat % 256 := by
  simp [fieldNN]

/-- The sixteen values of a nibble. -/
theorem nibble_mem : ∀ n : BitVec 4, n ∈ [0x0#4, 0x1#4, 0x2#4, 0x3#4, 0x4#4, 0x5#4, 0x6#4, 0x7#4,
    0x8#4, 0x9#4, 0xA#4, 0xB#4, 0xC#4, 0xD#4, 0xE#4, 0xF#4] := by
  decide

theorem decodeFamily0_error_iff :
    (∃ e, decodeFamily0 w = .error e) ↔ w ≠ 0x00E0#16 ∧ w ≠ 0x00EE#16 := by
  unfold decodeFamily0
  split
  · simp_all
  · split <;> simp_all

theorem decodeFamily8_error_iff :
    (∃ e, decodeFamily8 w = .error e) ↔
      (fieldN w).toNat ∈ [0x8, 0x9, 0xA, 0xB, 0xC, 0xD, 0xF] := by
  have hn := nibble_mem (fieldN w)
  unfold decodeFamily8
  split <;> simp_all [← BitVec.toNat_inj]

theorem decodeFamilyE_error_iff :
    (∃ e, decodeFamilyE w = .error e) ↔ (fieldNN w).toNat ∉ [0x9E, 0xA1] := by
  unfold decodeFamilyE
  split <;> simp_all [← BitVec.toNat_inj]

theorem decodeFamilyF_error_iff :
    (∃ e, decodeFamilyF w = .error e) ↔
      (fieldNN w).toNat ∉ [0x07, 0x0A, 0x15, 0x18, 0x1E, 0x29, 0x33, 0x55, 0x65] := by
  unfold decodeFamilyF
  split <;> simp_all [← BitVec.toNat_inj]

/-- Only the divided families leave words unrecognized, the top nibble having a branch for each of
its values (R63). -/
theorem decode_error_iff :
    (∃ e, decode w = .error e) ↔
      (fieldFamily w = 0x0#4 ∧ ∃ e, decodeFamily0 w = .error e) ∨
      (fieldFamily w = 0x8#4 ∧ ∃ e, decodeFamily8 w = .error e) ∨
      (fieldFamily w = 0xE#4 ∧ ∃ e, decodeFamilyE w = .error e) ∨
      (fieldFamily w = 0xF#4 ∧ ∃ e, decodeFamilyF w = .error e) := by
  have hfam := nibble_mem (fieldFamily w)
  unfold decode
  split <;> simp_all

end

end Sys2Proof

namespace Sys2Proof.Proofs

open Sys2Proof

/-- Settles O5: the decoder reads back the fields of each format. -/
theorem decodeOfEncodeIsTheInstruction : Obligations.DecodeOfEncodeIsTheInstruction := decode_encode

/-- Settles O6: in each of the decoder's branches the family, the sub-opcode and the operands are
all of the word's bits. -/
theorem encodeOfDecodedWordIsTheWord : Obligations.EncodeOfDecodedWordIsTheWord :=
  fun _ _ => encode_of_decode

/-- Settles O7: a recognized word is its instruction's encoding, which matches the row; and a match
gives the word the row's family and sub-opcode, which is all the decoder selects by. -/
theorem opcodeMapSelectsTheInstruction : Obligations.OpcodeMapSelectsTheInstruction := by
  intro w i
  refine ⟨fun h => ?_, decode_of_row⟩
  rw [← encode_of_decode h]
  exact Laws.TableRow.all i

/-- Settles O8: the sub-opcodes that each divided family rejects, read as numbers. -/
theorem unrecognizedWordsAreExactlyTheTable : Obligations.UnrecognizedWordsAreExactlyTheTable := by
  intro w
  rw [decode_error_iff, decodeFamily0_error_iff, decodeFamily8_error_iff, decodeFamilyE_error_iff,
    decodeFamilyF_error_iff]
  simp only [ne_eq, ← BitVec.toNat_inj, fieldFamily_toNat, fieldN_toNat, fieldNN_toNat]
  exact Iff.rfl

/-- Settles O4: nineteen closed words, each decoded by evaluation. -/
theorem handWrittenWordsDecode : Obligations.HandWrittenWordsDecode := by
  unfold Obligations.HandWrittenWordsDecode
  decide

end Sys2Proof.Proofs

/-! The laws of a step (40_step.md R80 to R87): the decoded instruction and the tick, the reported
no-op, what no step does, and the instructions that end at `pc0 + 2`. -/

namespace Sys2Proof.Machine

open Sys2Proof

/-! ### The phases around the instruction (40_step.md R80, R83, R84) -/

/-- The tick in the rule's arithmetic (40_step.md R83). -/
theorem tickDown_eq_ofNat (t : Word) : tickDown t = BitVec.ofNat 16 (t.toNat - 1) := by
  rw [← tickDown_toNat, BitVec.ofNat_toNat, BitVec.setWidth_eq]

/-- What follows the instruction: both timers tick and the byte on `rand_in` is forgotten. -/
theorem finishStep_eq_record (s : State) :
    finishStep s = { s with
      delayTimer := BitVec.ofNat 16 (s.delayTimer.toNat - 1)
      soundTimer := BitVec.ofNat 16 (s.soundTimer.toNat - 1)
      randIn := none } := by
  rw [← tickDown_eq_ofNat, ← tickDown_eq_ofNat]
  rfl

theorem step_of_decode {s t : State} {i : Instr} (hd : decode (fetchWord s) = .ok i)
    (h : exec i (latchFetch s) = .next t) : step s = .next (finishStep t) :=
  step_of_execute (by rw [hd]; exact h)

theorem step_of_reject {s : State} {e : DecodeReject} (hd : decode (fetchWord s) = .error e) :
    step s = .next (finishStep (unrecognized (latchFetch s))) :=
  step_of_execute (by rw [hd]; rfl)

/-! ### Independence of `halted` (40_step.md R87, 10_state.md R23)

Every operation does the same whatever `halted` holds. -/

/-- The state with another value of `halted`. -/
def withHalted (b : Bool) (s : State) : State := { s with halted := b }

theorem popPc_withHalted (b : Bool) (s : State) :
    popPc (withHalted b s) = (popPc s).map fun p => (p.1, withHalted b p.2) := by
  by_cases hlive : 0 < s.sp.val <;> simp [popPc, withHalted, hlive]

theorem pushPc_withHalted (b : Bool) (s : State) :
    pushPc (withHalted b s) = (pushPc s).map (withHalted b) := by
  by_cases hfree : s.sp.val < 16 <;> simp [pushPc, withHalted, hfree]

theorem hitPixel_withHalted (b : Bool) (s : State) (p : Nat) :
    hitPixel (withHalted b s) p = withHalted b (hitPixel s p) := by
  have hread : fbGet (withHalted b s) p = fbGet s p := rfl
  unfold hitPixel
  rw [hread]
  split <;> rfl

/-- Changing `halted` before an instruction changes at most `halted` after it. -/
theorem exec_withHalted {i : Instr} {s t : State} (h : exec i s = .next t) (b : Bool) :
    ∃ c, exec i (withHalted b s) = .next (withHalted c t) := by
  cases i with
  | ret =>
    refine ⟨b, ?_⟩
    simp only [exec, execRet, popPc_withHalted] at h ⊢
    cases hpop : popPc s <;> rw [hpop] at h <;> cases h <;> rfl
  | call nnn =>
    refine ⟨b, ?_⟩
    simp only [exec, execCall, pushPc_withHalted] at h ⊢
    cases hpush : pushPc s <;> rw [hpush] at h <;> cases h <;> rfl
  | jp nnn =>
    have hpc : (withHalted b s).pc = s.pc := rfl
    obtain ⟨hself, rfl⟩ | ⟨hne, rfl⟩ := exec_jp_cases h
    · exact ⟨true, by rw [exec, execJp, hpc, if_pos hself]; rfl⟩
    · exact ⟨b, by rw [exec, execJp, hpc, if_neg hne]; rfl⟩
  | ldVxK x =>
    have hsame : pressedKeys (withHalted b s) = pressedKeys s := rfl
    simp only [exec, execLdVxK, hsame] at h ⊢
    split at h <;> cases h <;> exact ⟨b, rfl⟩
  | stRegs x =>
    cases h
    have hloop : (regsUpTo x).foldl storeReg (withHalted b s) =
        withHalted b ((regsUpTo x).foldl storeReg s) := List.foldl_hom _ fun _ _ => rfl
    exact ⟨b, congrArg (fun u => Host.Outcome.next (advance u)) hloop⟩
  | ldRegs x =>
    cases h
    have hloop : (regsUpTo x).foldl loadReg (withHalted b s) =
        withHalted b ((regsUpTo x).foldl loadReg s) := List.foldl_hom _ fun _ _ => rfl
    exact ⟨b, congrArg (fun u => Host.Outcome.next (advance u)) hloop⟩
  | drw x y n =>
    rw [exec_drw] at h
    cases h
    have hflag : setFlag (withHalted b s) false = withHalted b (setFlag s false) := rfl
    rw [exec_drw, hflag, List.foldl_hom (withHalted b) (hitPixel_withHalted b)]
    exact ⟨b, rfl⟩
  | _ => cases h; exact ⟨b, rfl⟩

theorem execute_withHalted {d : Except DecodeReject Instr} {s t : State}
    (h : execute d s = .next t) (b : Bool) :
    ∃ c, execute d (withHalted b s) = .next (withHalted c t) := by
  cases d with
  | ok i => exact exec_withHalted h b
  | error e => cases h; exact ⟨b, rfl⟩

theorem step_withHalted {s t : State} (h : step s = .next t) (b : Bool) :
    ∃ c, step (withHalted b s) = .next (withHalted c t) := by
  obtain ⟨u, hu, rfl⟩ := step_cases h
  obtain ⟨c, hc⟩ := execute_withHalted hu b
  exact ⟨c, step_of_execute (s := withHalted b s) (u := withHalted c u) hc⟩

/-! ### The key wait does not block (40_step.md R87, 45_keys_timers.md R137) -/

theorem step_pc_of_keyWait {s t : State} {x : Reg} (h : step s = .next t)
    (hd : decode (fetchWord s) = .ok (.ldVxK x)) (hup : ∀ k, keyDown s k = false) :
    t.pc = s.pc := by
  obtain ⟨u, hu, rfl⟩ := step_cases h
  rw [hd] at hu
  obtain ⟨-, rfl⟩ | ⟨k, ks, hkeys, -⟩ := exec_ldVxK_cases hu
  · rfl
  · have hk : keyDown (latchFetch s) k = true := (mem_pressedKeys _ k).mp (by simp [hkeys])
    rw [keyDown_latchFetch, hup k] at hk
    cases hk

/-! ### The instructions that end at `pc0 + 2` (40_step.md R82) -/

section
variable {i : Instr} {s t : State}

theorem exec_pc_of_alu (hi : i.family = .alu) (h : exec i s = .next t) : t.pc = s.pc + 2 := by
  cases i with
  | ldImm | addImm | ldReg | or | and | xor | addReg | sub | shr | subn | shl | rnd => cases h; rfl
  | _ => cases hi

theorem exec_pc_of_indexMemory (hi : i.family = .indexMemory) (h : exec i s = .next t) :
    t.pc = s.pc + 2 := by
  cases i with
  | ldI | addI | ldF | ldB => cases h; rfl
  | stRegs x =>
    rw [exec_stRegs] at h
    cases h
    rfl
  | ldRegs x =>
    cases h
    rw [foldl_loadReg_eq]
    rfl
  | _ => cases hi

theorem exec_pc_of_display (hi : i.family = .display) (h : exec i s = .next t) :
    t.pc = s.pc + 2 := by
  cases i with
  | cls => cases h; rfl
  | drw x y n =>
    rw [exec_drw] at h
    cases h
    rw [foldl_hitPixel_eq]
    rfl
  | _ => cases hi

end

/-- `pc` wraps at 65536 (92_eei_decisions.md D3). -/
theorem pc_add_two_toNat (pc : Word) : (pc + 2).toNat = (pc.toNat + 2) % 65536 :=
  BitVec.toNat_add pc 2

end Sys2Proof.Machine

namespace Sys2Proof.Safety

open Sys2Proof Sys2Proof.Machine

/-! ### The timers over a step and over a run (40_step.md R83) -/

/-- `delay_timer` over a step: Fx15 loads it before the tick, every other word leaves it to the
tick. -/
theorem step_delayTimer {s t : State} (h : step s = .next t) :
    (∀ x, decode (fetchWord s) ≠ .ok (.ldDtVx x)) ∧
        t.delayTimer.toNat = s.delayTimer.toNat - 1 ∨
      ∃ x, decode (fetchWord s) = .ok (.ldDtVx x) ∧
        t.delayTimer.toNat = (getV s x).toNat - 1 := by
  obtain ⟨u, hu, rfl⟩ := step_cases h
  have htick : (finishStep u).delayTimer.toNat = u.delayTimer.toNat - 1 := tickDown_toNat _
  obtain ⟨hno, hkept⟩ | ⟨x, hd, hloaded⟩ := execute_delayTimer hu
  · exact .inl ⟨hno, by rw [htick, hkept, latchFetch_delayTimer]⟩
  · exact .inr ⟨x, hd, by rw [htick, hloaded, zextByte_toNat, getV_latchFetch]⟩

/-- `sound_timer` over a step: Fx18 loads it before the tick, every other word leaves it to the
tick. -/
theorem step_soundTimer {s t : State} (h : step s = .next t) :
    (∀ x, decode (fetchWord s) ≠ .ok (.ldStVx x)) ∧
        t.soundTimer.toNat = s.soundTimer.toNat - 1 ∨
      ∃ x, decode (fetchWord s) = .ok (.ldStVx x) ∧
        t.soundTimer.toNat = (getV s x).toNat - 1 := by
  obtain ⟨u, hu, rfl⟩ := step_cases h
  have htick : (finishStep u).soundTimer.toNat = u.soundTimer.toNat - 1 := tickDown_toNat _
  obtain ⟨hno, hkept⟩ | ⟨x, hd, hloaded⟩ := execute_soundTimer hu
  · exact .inl ⟨hno, by rw [htick, hkept, latchFetch_soundTimer]⟩
  · exact .inr ⟨x, hd, by rw [htick, hloaded, zextByte_toNat, getV_latchFetch]⟩

theorem step_delayTimer_of_ne {s t : State} (h : step s = .next t)
    (hno : ∀ x, decode (fetchWord s) ≠ .ok (.ldDtVx x)) :
    t.delayTimer.toNat = s.delayTimer.toNat - 1 := by
  obtain ⟨-, htick⟩ | ⟨x, hd, -⟩ := step_delayTimer h
  · exact htick
  · exact absurd hd (hno x)

/-! ### What no step writes or clears (40_step.md R87) -/

theorem not_mayWrite_keyState (i : Instr) (s : State) : ¬ mayWrite i s .keyState := by
  cases i <;> exact id

theorem mayWrite_fbDirty {i : Instr} {s : State} (h : mayWrite i s .fbDirty) :
    i = .cls ∨ ∃ x y n, i = .drw x y n := by
  cases i with
  | cls => exact .inl rfl
  | drw x y n => exact .inr ⟨x, y, n, rfl⟩
  | _ => exact False.elim h

/-- What writes `fb_dirty` sets it (10_state.md R24). -/
theorem exec_fbDirty_of_mayWrite {i : Instr} {s t : State} (h : exec i s = .next t)
    (hw : mayWrite i s .fbDirty) : t.fbDirty = true := by
  obtain rfl | ⟨x, y, n, rfl⟩ := mayWrite_fbDirty hw
  · cases h; rfl
  · rw [exec_drw] at h
    cases h
    rfl

theorem step_keyState {s t : State} (h : step s = .next t) : t.keyState = s.keyState := by
  obtain ⟨u, hu, rfl⟩ := step_cases h
  cases hd : decode (fetchWord s) with
  | error e => rw [hd] at hu; cases hu; rfl
  | ok i =>
    rw [hd] at hu
    exact framed_all i (latchFetch s) u .keyState hu (not_mayWrite_keyState i _)

theorem step_keeps_fbDirty {s t : State} (h : step s = .next t) (hdirty : s.fbDirty = true) :
    t.fbDirty = true := by
  obtain ⟨u, hu, rfl⟩ := step_cases h
  show u.fbDirty = true
  cases hd : decode (fetchWord s) with
  | error e => rw [hd] at hu; cases hu; exact hdirty
  | ok i =>
    rw [hd] at hu
    by_cases hw : mayWrite i (latchFetch s) .fbDirty
    · exact exec_fbDirty_of_mayWrite hu hw
    · exact (framed_all i (latchFetch s) u .fbDirty hu hw).trans hdirty

end Sys2Proof.Safety

namespace Sys2Proof.Proofs

open Sys2Proof Sys2Proof.Machine Sys2Proof.Safety

/-- Settles O11: every step answers, and `step_diagnostics` says what it recorded. -/
theorem stepAlwaysCompletesWithAtMostOneDiagnostic :
    Obligations.StepAlwaysCompletesWithAtMostOneDiagnostic := by
  intro s
  obtain ⟨t, ht⟩ := step_answers s
  refine ⟨t, ht, ?_⟩
  obtain ⟨-, hdiag, hlog, -⟩ | ⟨code, -, hdiag, hlog, -⟩ := step_diagnostics ht
  · exact .inl ⟨hdiag, hlog⟩
  · exact .inr ⟨_, hdiag, hlog⟩

/-- Settles O12: the step of a rejected word is `unrecognized` between the fetch and the tick, none
of which touches the listed elements. -/
theorem unrecognizedWordIsAReportedNoOp : Obligations.UnrecognizedWordIsAReportedNoOp := by
  rintro s ⟨e, hd⟩
  exact ⟨_, step_of_reject hd, pc_add_two_toNat s.pc, rfl, rfl, rfl, tickDown_toNat _,
    tickDown_toNat _, fun _ => rfl, fun _ => rfl, fun _ => rfl, rfl, rfl, rfl, rfl, rfl, rfl, rfl⟩

/-- Settles O14: each timer's value before the tick is the loaded byte or the old value. -/
theorem everyStepTicksBothTimers : Obligations.EveryStepTicksBothTimers := by
  intro s t h
  constructor
  · obtain ⟨hno, htick⟩ | ⟨x, hd, htick⟩ := step_delayTimer h
    · split
      · exact absurd ‹_› (hno _)
      · exact htick
    · rw [hd]
      exact htick
  · obtain ⟨hno, htick⟩ | ⟨x, hd, htick⟩ := step_soundTimer h
    · split
      · exact absurd ‹_› (hno _)
      · exact htick
    · rw [hd]
      exact htick

/-- Settles O15, by induction on the number of steps. -/
theorem delayTimerCountsDownOverAnyRun : Obligations.DelayTimerCountsDownOverAnyRun := by
  intro n
  induction n with
  | zero =>
    rintro s t rfl -
    rfl
  | succ n ih =>
    rintro s t ⟨u, hu, hrun⟩ hno
    have hfirst : u.delayTimer.toNat = s.delayTimer.toNat - 1 :=
      step_delayTimer_of_ne hu (hno 0 n.succ_pos s rfl)
    have hrest : t.delayTimer.toNat = u.delayTimer.toNat - n :=
      ih u t hrun fun j hj v hv => hno (j + 1) (Nat.succ_lt_succ hj) v ⟨u, hu, hv⟩
    rw [hrest, hfirst, Nat.sub_sub, Nat.add_comm]

/-- Settles O16: the frame leaves `key_state` alone and `fb_dirty` to what sets it; `halted` is set
only, and goes through every operation unread. -/
theorem stepNeverClearsConsultsOrBlocks : Obligations.StepNeverClearsConsultsOrBlocks := by
  intro s
  obtain ⟨t, ht⟩ := step_answers s
  obtain ⟨hhalted, -⟩ := keepsRecord_of_step ht
  exact ⟨t, ht, step_keeps_fbDirty ht, hhalted, step_keyState ht, step_withHalted ht,
    fun _ => step_pc_of_keyWait ht⟩

/-- Settles O10: the instruction answers a state, and the tick is the rule's arithmetic. -/
theorem stepRunsTheDecodedInstruction : Obligations.StepRunsTheDecodedInstruction := by
  intro s i hd
  obtain ⟨t, ht⟩ := exec_answers i (latchFetch s)
  have hlatch : exec i { s with currentOpcode := fetchWord s, diag := none } = .next t := ht
  rw [step_of_decode hd ht, hlatch, finishStep_eq_record]

/-- Settles O29, family by family: each of these instructions writes `pc` by `advance` alone. -/
theorem straightLineInstructionsAdvanceByTwo :
    Obligations.StraightLineInstructionsAdvanceByTwo := by
  intro i s hi
  obtain ⟨t, ht⟩ := exec_answers i s
  refine ⟨t, ht, ?_⟩
  have hpc : t.pc = s.pc + 2 := by
    obtain hi | hi | hi | ⟨x, rfl | rfl | rfl⟩ := hi
    · exact exec_pc_of_alu hi ht
    · exact exec_pc_of_indexMemory hi ht
    · exact exec_pc_of_display hi ht
    all_goals
      cases ht
      rfl
  exact (congrArg BitVec.toNat hpc).trans (pc_add_two_toNat s.pc)

end Sys2Proof.Proofs

/-! The laws of control flow (41_flow.md): where each skip, jump, call and return goes, and the call
stack below the running subroutine over any steps and host moves. -/

namespace Sys2Proof.Machine

open Sys2Proof

/-! ### The register skips (41_flow.md R94 to R97) -/

section
variable (s : State) (a b : Byte)

theorem skipIf_beq_pc_toNat : (skipIf s (a == b)).pc.toNat =
    (s.pc.toNat + if a.toNat = b.toNat then 4 else 2) % 65536 := by
  by_cases h : a = b
  · simp [h]
  · simp [h, BitVec.toNat_inj]

theorem skipIf_bne_pc_toNat : (skipIf s (a != b)).pc.toNat =
    (s.pc.toNat + if a.toNat = b.toNat then 2 else 4) % 65536 := by
  by_cases h : a = b
  · simp [h]
  · simp [h, BitVec.toNat_inj]

end

/-! ### The jumps (41_flow.md R91, R93) -/

/-- The self-jump test compares 16-bit numbers (41_flow.md R91). -/
theorem zextAddr_eq_iff (nnn : Addr12) (a : Word) : zextAddr nnn = a ↔ nnn.toNat = a.toNat := by
  rw [BitVec.toNat_eq, zextAddr_toNat]

/-- A byte and a 12-bit address have a 16-bit sum (41_flow.md R93). -/
theorem zextByte_add_zextAddr_toNat (b : Byte) (nnn : Addr12) :
    (zextByte b + zextAddr nnn).toNat = b.toNat + nnn.toNat := by
  have hb : b.toNat < 256 := b.isLt
  have hn : nnn.toNat < 4096 := nnn.isLt
  rw [BitVec.toNat_add, zextByte_toNat, zextAddr_toNat, Nat.mod_eq_of_lt (by omega)]

/-! ### Call and return, case by case (41_flow.md R90, R92) -/

section
variable {s : State}

theorem exec_call_of_free (nnn : Addr12) (hfree : s.sp.val < 16) :
    exec (.call nnn) s = .next (jumpTo
      { s with stack := s.stack.set s.sp.val s.pc, sp := ⟨s.sp.val + 1, Nat.succ_lt_succ hfree⟩ }
      (zextAddr nnn)) := by
  obtain ⟨_, hpush⟩ | ⟨hfull, -⟩ := pushPc_cases s
  · rw [exec, execCall, hpush]
  · omega

theorem exec_call_of_full (nnn : Addr12) (hfull : s.sp.val = 16) :
    exec (.call nnn) s = .next (reportAndIgnore .stackOverflow s) := by
  obtain ⟨hfree, -⟩ | ⟨-, hpush⟩ := pushPc_cases s
  · omega
  · rw [exec, execCall, hpush]

theorem exec_ret_of_live {d : Fin 16} (hd : s.sp.val = d.val + 1) :
    exec .ret s = .next (jumpTo { s with sp := d.castSucc } (s.stack[d.val] + 2)) := by
  obtain ⟨_, hpop⟩ | ⟨hempty, -⟩ := popPc_cases s
  · rw [exec, execRet, hpop]
    simp only [hd, Nat.add_sub_cancel]
    rfl
  · omega

theorem exec_ret_of_empty (hempty : s.sp.val = 0) :
    exec .ret s = .next (reportAndIgnore .stackUnderflow s) := by
  obtain ⟨hlive, -⟩ | ⟨-, hpop⟩ := popPc_cases s
  · omega
  · rw [exec, execRet, hpop]

end

/-- A call step with a free entry leaves its own address on top of the stack. -/
theorem step_call_pushes {s t : State} {nnn : Addr12} (h : step s = .next t)
    (hd : decode (fetchWord s) = .ok (.call nnn)) (hfree : s.sp.val < 16) :
    t.stack[s.sp.val] = s.pc := by
  rw [step_of_decode hd (exec_call_of_free (s := latchFetch s) nnn hfree)] at h
  cases h
  exact Vector.getElem_set_self hfree

/-- A return step with a live entry goes 2 past the address on top and lowers the depth. -/
theorem step_ret_pops {s : State} {d : Fin 16} (hd : decode (fetchWord s) = .ok .ret)
    (hlive : s.sp.val = d.val + 1) :
    ∃ t, step s = .next t ∧ t.pc = s.stack[d.val] + 2 ∧ t.sp = d.castSucc :=
  ⟨_, step_of_decode hd (exec_ret_of_live (s := latchFetch s) hlive), rfl, rfl⟩

end Sys2Proof.Machine

namespace Sys2Proof.Safety

open Sys2Proof Sys2Proof.Machine

/-! ### A live entry stays while the depth stays above it (41_flow.md R98)

A push writes the entry at `sp`, so nothing but a reset writes an entry below `sp`. -/

section
variable {s t : State} {e : Fin 16}

theorem step_keeps_stackEntry (h : step s = .next t) (hlive : e.val < s.sp.val) :
    t.stack[e.val] = s.stack[e.val] := by
  by_contra hne
  obtain ⟨-, hpushed, -⟩ := (Proofs.callStackChangesOnlyByCallAndReturn s t h).1 e hne
  omega

theorem applyMove_keeps_stackEntry {m : HostMove} (hm : m ≠ .reset) (h : applyMove m s = .next t)
    (hlive : e.val < s.sp.val) : t.stack[e.val] = s.stack[e.val] := by
  cases m with
  | strobe => exact step_keeps_stackEntry h hlive
  | reset => exact absurd rfl hm
  | keysIn | randIn | fbDirtyClear => cases h; rfl

/-- The entry is live before every move, so every move keeps it. -/
theorem session_keeps_stackEntry {ms : List HostMove} (hno : HostMove.reset ∉ ms)
    (h : session ms s = .next t)
    (hlive : ∀ ms1 ms2 v, ms = ms1 ++ ms2 → session ms1 s = .next v → e.val < v.sp.val) :
    t.stack[e.val] = s.stack[e.val] := by
  induction ms generalizing s with
  | nil => cases h; rfl
  | cons m ms ih =>
    obtain ⟨hm, hms⟩ := not_or.mp (mt List.mem_cons.mpr hno)
    cases hv : applyMove m s with
    | next v =>
      rw [session_cons ms hv] at h
      have hfirst : v.stack[e.val] = s.stack[e.val] :=
        applyMove_keeps_stackEntry (Ne.symm hm) hv (hlive [] (m :: ms) s rfl rfl)
      have hrest : t.stack[e.val] = v.stack[e.val] :=
        ih hms h fun ms1 ms2 w hsplit hw =>
          hlive (m :: ms1) ms2 w (by rw [hsplit, List.cons_append]) ((session_cons ms1 hv).trans hw)
      exact hrest.trans hfirst
    | fault r => cases r
    | refused r => rw [session, hv] at h; cases h

end

end Sys2Proof.Safety

namespace Sys2Proof.Proofs

open Sys2Proof Sys2Proof.Machine Sys2Proof.Safety

/-- Settles O35: the entry that the call pushed is below `sp` until the return, so the return pops
the call's own address. -/
theorem callAndReturnPairUp : Obligations.CallAndReturnPairUp := by
  intro s t u nnn ms hcall hfree hst hno hses hdeep hdepth hret
  have hpushed : t.stack[s.sp.val] = s.pc := step_call_pushes hst hcall hfree
  have hkept : u.stack[s.sp.val] = t.stack[s.sp.val] :=
    session_keeps_stackEntry (e := ⟨s.sp.val, hfree⟩) hno hses hdeep
  obtain ⟨w, hw, hpc, hsp⟩ := step_ret_pops (d := ⟨s.sp.val, hfree⟩) hret hdepth
  refine ⟨w, hw, ?_, hsp⟩
  rw [hpc, hkept, hpushed, pc_add_two_toNat]

/-- Settles O30: equal bytes are equal numbers, and the unexamined nibble has no effect. -/
theorem registerSkipsAddFourOrTwo : Obligations.RegisterSkipsAddFourOrTwo :=
  fun _ _ _ _ s => ⟨⟨_, rfl, skipIf_beq_pc_toNat s _ _⟩, ⟨_, rfl, skipIf_bne_pc_toNat s _ _⟩,
    ⟨_, rfl, skipIf_beq_pc_toNat s _ _⟩, ⟨_, rfl, skipIf_bne_pc_toNat s _ _⟩⟩

/-- Settles O31, by the two outcomes of the self-jump test. -/
theorem jumpDetectsSelfJump : Obligations.JumpDetectsSelfJump := by
  intro nnn s
  obtain ⟨t, ht⟩ := exec_answers (.jp nnn) s
  refine ⟨t, ht, ?_⟩
  obtain ⟨hself, rfl⟩ | ⟨hother, rfl⟩ := exec_jp_cases ht
  · exact ⟨zextAddr_toNat nnn, fun _ => ⟨rfl, rfl, rfl⟩,
      fun hne => absurd ((zextAddr_eq_iff nnn s.pc).mp hself) hne⟩
  · exact ⟨zextAddr_toNat nnn, fun heq => absurd ((zextAddr_eq_iff nnn s.pc).mpr heq) hother,
      fun _ => ⟨rfl, rfl, rfl⟩⟩

/-- Settles O32: the decoder by the round trip of encoding, the target by the sum that fits. -/
theorem indexedJumpAddsV0 : Obligations.IndexedJumpAddsV0 :=
  fun nnn s => ⟨decode_encode (.jpV0 nnn),
    ⟨_, rfl, zextByte_add_zextAddr_toNat (getV s 0) nnn, rfl⟩⟩

/-- Settles O33, by whether an entry is free. -/
theorem callPushesPcAndJumps : Obligations.CallPushesPcAndJumps := by
  intro nnn s
  constructor
  · intro hfree
    refine ⟨_, exec_call_of_free nnn hfree, zextAddr_toNat nnn, rfl, fun i => ?_, rfl, rfl⟩
    simp only [jumpTo_stack, Vector.getElem_set, eq_comm]
  · intro hfull
    exact ⟨_, exec_call_of_full nnn hfull, pc_add_two_toNat s.pc, rfl, rfl, rfl, rfl⟩

/-- Settles O34, by whether an entry is live. -/
theorem returnPopsAndAddsTwo : Obligations.ReturnPopsAndAddsTwo := by
  intro s
  constructor
  · intro d hlive
    exact ⟨_, exec_ret_of_live hlive, pc_add_two_toNat _, rfl, rfl, rfl, rfl⟩
  · intro hempty
    exact ⟨_, exec_ret_of_empty hempty, pc_add_two_toNat s.pc, rfl, rfl, rfl, rfl⟩

end Sys2Proof.Proofs

/-! The laws of register load, arithmetic, logic, shifts and random (42_alu.md R100 to R113). -/

namespace Sys2Proof.Machine

open Sys2Proof

/-! ### A register beside the written one -/

theorem getV_setV_of_ne (s : State) {x r : Reg} (hr : r ≠ x) (b : Byte) :
    getV (setV s x b) r = getV s r :=
  (getV_setV s x r b).trans (if_neg hr)

/-! ### The flag computations in the rules' arithmetic (42_alu.md R107 to R111) -/

theorem flagByte_toNat (c : Bool) : (flagByte c).toNat = c.toNat := by
  cases c <;> rfl

theorem flagByte_decide_toNat (p : Prop) [Decidable p] :
    (flagByte (decide p)).toNat = if p then 1 else 0 := by
  rw [flagByte_toNat]
  by_cases hp : p <;> simp [hp]

section
variable (a b : Byte)

theorem carryOf_flag_toNat :
    (flagByte (carryOf a b)).toNat = if 255 < a.toNat + b.toNat then 1 else 0 :=
  flagByte_decide_toNat _

theorem noBorrow_flag_toNat :
    (flagByte (noBorrow a b)).toNat = if b.toNat ≤ a.toNat then 1 else 0 :=
  flagByte_decide_toNat _

theorem lsbOf_flag_toNat : (flagByte (lsbOf a)).toNat = a.toNat % 2 := by
  rw [flagByte_toNat, lsbOf, BitVec.getLsbD, Nat.toNat_testBit, Nat.pow_zero, Nat.div_one]

theorem msbOf_flag_toNat : (flagByte (msbOf a)).toNat = a.toNat / 128 := by
  have ha : a.toNat < 256 := a.isLt
  rw [flagByte_toNat, msbOf, BitVec.getLsbD, Nat.toNat_testBit]
  omega

/-! ### The written values in the rules' arithmetic (42_alu.md R108 to R111) -/

/-- A difference modulo 256, as the rules write it. -/
theorem byte_sub_toNat : (a - b).toNat = (a.toNat + 256 - b.toNat) % 256 := by
  have hb : b.toNat < 256 := b.isLt
  rw [BitVec.toNat_sub]
  omega

theorem byte_shiftRight_one_toNat : (a >>> 1).toNat = a.toNat / 2 := by
  rw [BitVec.toNat_ushiftRight, Nat.shiftRight_eq_div_pow, Nat.pow_one]

theorem byte_shiftLeft_one_toNat : (a <<< 1).toNat = 2 * a.toNat % 256 := by
  rw [BitVec.toNat_shiftLeft, Nat.shiftLeft_eq, Nat.pow_one, Nat.mul_comm]

end

/-! ### The flag first, then the destination (42_alu.md R100, 92_eei_decisions.md D9)

8xy5, 8xy6, 8xy7 and 8xyE write in this order, so their second assignment reads the flag wherever an
operand is `VF`. -/

/-- The flag `c` to `VF`, then `f V[x] V[y]` of the registers as that left them to `V[x]`. -/
def flagThenWrite (c : Bool) (f : Byte → Byte → Byte) (x y : Reg) (s : State) : State :=
  setV (setFlag s c) x (f (getV (setFlag s c) x) (getV (setFlag s c) y))

theorem exec_sub (x y : Reg) (s : State) : exec (.sub x y) s =
    .next (advance (flagThenWrite (noBorrow (getV s x) (getV s y)) (fun a b => a - b) x y s)) := rfl

theorem exec_subn (x y : Reg) (s : State) : exec (.subn x y) s =
    .next (advance (flagThenWrite (noBorrow (getV s y) (getV s x)) (fun a b => b - a) x y s)) := rfl

theorem exec_shr (x y : Reg) (s : State) : exec (.shr x y) s =
    .next (advance (flagThenWrite (lsbOf (getV s x)) (fun _ b => b >>> 1) x y s)) := rfl

theorem exec_shl (x y : Reg) (s : State) : exec (.shl x y) s =
    .next (advance (flagThenWrite (msbOf (getV s x)) (fun _ b => b <<< 1) x y s)) := rfl

/-- The four cases of which operand is `VF`, in natural numbers: `k` is the flag and `g` what `f`
computes. -/
theorem flagThenWrite_values {c : Bool} {f : Byte → Byte → Byte} {k : Nat} {g : Nat → Nat → Nat}
    (hk : (flagByte c).toNat = k)
    (hg : ∀ a b, (f a b).toNat = g a.toNat b.toNat) (x y : Reg) (s : State) :
    let t := flagThenWrite c f x y s
    let a := (getV s x).toNat
    let b := (getV s y).toNat
    (x ≠ 15 → y ≠ 15 → (getV t x).toNat = g a b ∧ (getV t 15).toNat = k) ∧
    (x ≠ 15 → y = 15 → (getV t x).toNat = g a k ∧ (getV t 15).toNat = k) ∧
    (x = 15 → y ≠ 15 → (getV t 15).toNat = g k b) ∧
    (x = 15 → y = 15 → (getV t 15).toNat = g k k) := by
  have hflag : (getV (setFlag s c) 15).toNat = k := by rw [setFlag_eq, getV_setV_self, hk]
  have hother {r : Reg} (hr : r ≠ 15) : getV (setFlag s c) r = getV s r := getV_setV_of_ne s hr _
  have hdest : (getV (flagThenWrite c f x y s) x).toNat =
      g (getV (setFlag s c) x).toNat (getV (setFlag s c) y).toNat := by
    rw [flagThenWrite, getV_setV_self, hg]
  have hvf (hx : x ≠ 15) : (getV (flagThenWrite c f x y s) 15).toNat = k := by
    rw [flagThenWrite, getV_setV_of_ne _ hx.symm, hflag]
  refine ⟨fun hx hy => ⟨?_, hvf hx⟩, fun hx hy => ⟨?_, hvf hx⟩, fun hx hy => ?_, fun hx hy => ?_⟩
  · rw [hdest, hother hx, hother hy]
  · rw [hdest, hother hx, hy, hflag]
  · subst hx
    rw [hdest, hflag, hother hy]
  · subst hx hy
    rw [hdest, hflag]

end Sys2Proof.Machine

namespace Sys2Proof.Proofs

open Sys2Proof Sys2Proof.Machine

/-- Settles O19: the instruction is one register write. -/
theorem loadImmediateWritesTheByte : Obligations.LoadImmediateWritesTheByte :=
  fun x nn s => ⟨decode_encode (.ldImm x nn),
    ⟨_, rfl, getV_setV_self s x nn, fun hx => getV_setV_of_ne s hx.symm nn, rfl, rfl⟩⟩

/-- Settles O20: the instruction is one register write, of a sum modulo 256. -/
theorem addImmediateWrapsWithoutFlag : Obligations.AddImmediateWrapsWithoutFlag := by
  intro x nn s
  refine ⟨decode_encode (.addImm x nn), _, rfl, ?_, fun r hr => getV_setV_of_ne s hr _, rfl, rfl⟩
  rw [advance_eq, getV_jumpTo, getV_setV_self, BitVec.toNat_add]

/-- Settles O21: the instruction is one register write. -/
theorem copyRegisterWritesTheSource : Obligations.CopyRegisterWritesTheSource :=
  fun x y s => ⟨decode_encode (.ldReg x y),
    ⟨_, rfl, getV_setV_self s x (getV s y), fun hx => getV_setV_of_ne s hx.symm _, rfl, rfl⟩⟩

/-- Settles O22: each instruction is one register write, of a bitwise operation. -/
theorem logicIsBitwiseWithoutFlag : Obligations.LogicIsBitwiseWithoutFlag := by
  intro x y s
  have hframe (b : Byte) (r : Reg) (hr : r ≠ x) : getV (advance (setV s x b)) r = getV s r :=
    getV_setV_of_ne s hr b
  refine ⟨⟨decode_encode (.or x y), _, rfl, fun k _ => ?_, hframe _, rfl, rfl⟩,
    ⟨decode_encode (.and x y), _, rfl, fun k _ => ?_, hframe _, rfl, rfl⟩,
    ⟨decode_encode (.xor x y), _, rfl, fun k _ => ?_, hframe _, rfl, rfl⟩⟩ <;>
    rw [advance_eq, getV_jumpTo, getV_setV_self]
  · exact BitVec.getLsbD_or
  · exact BitVec.getLsbD_and
  · exact BitVec.getLsbD_xor

/-- Settles O23: the sum's write, then the carry's, which stays where both are to `VF`. -/
theorem addRegisterWritesSumThenCarry : Obligations.AddRegisterWritesSumThenCarry := by
  intro x y s
  refine ⟨decode_encode (.addReg x y), _, rfl, fun hx => ?_, ?_, fun r hrx hrf => ?_, rfl, rfl⟩ <;>
    rw [advance_eq, getV_jumpTo, setFlag_eq]
  · rw [getV_setV_of_ne _ hx, getV_setV_self, BitVec.toNat_add]
  · rw [getV_setV_self, carryOf_flag_toNat]
  · rw [getV_setV_of_ne _ hrf, getV_setV_of_ne s hrx]

/-- Settles O24: the four cases of `flagThenWrite_values`; with both operands `VF` the difference is
of a byte with itself. -/
theorem subtractWritesFlagThenDifference : Obligations.SubtractWritesFlagThenDifference := by
  intro x y s
  obtain ⟨hnone, hy, hx, hboth⟩ := flagThenWrite_values (g := fun a b => (a + 256 - b) % 256)
    (noBorrow_flag_toNat (getV s x) (getV s y)) byte_sub_toNat x y s
  refine ⟨_, exec_sub x y s, hnone, hy, hx, fun hxf hyf => (hboth hxf hyf).trans ?_⟩
  rw [Nat.add_sub_cancel_left]

/-- Settles O25: the four cases of `flagThenWrite_values`; with both operands `VF` the difference is
of a byte with itself. -/
theorem reverseSubtractWritesFlagThenDifference :
    Obligations.ReverseSubtractWritesFlagThenDifference := by
  intro x y s
  obtain ⟨hnone, hy, hx, hboth⟩ := flagThenWrite_values (g := fun a b => (b + 256 - a) % 256)
    (noBorrow_flag_toNat (getV s y) (getV s x)) (fun a b => byte_sub_toNat b a) x y s
  refine ⟨_, exec_subn x y s, hnone, hy, hx, fun hxf hyf => (hboth hxf hyf).trans ?_⟩
  rw [Nat.add_sub_cancel_left]

/-- Settles O26: the four cases of `flagThenWrite_values`; where `V[y]` is the flag, half of it is
0. -/
theorem shiftRightTakesFlagFromVxAndValueFromVy :
    Obligations.ShiftRightTakesFlagFromVxAndValueFromVy := by
  intro x y s
  have hhalf : (getV s x).toNat % 2 / 2 = 0 := Nat.div_eq_of_lt (Nat.mod_lt _ (by decide))
  obtain ⟨hnone, hy, hx, hboth⟩ := flagThenWrite_values (g := fun _ b => b / 2)
    (lsbOf_flag_toNat (getV s x)) (fun _ b => byte_shiftRight_one_toNat b) x y s
  refine ⟨_, exec_shr x y s, hnone, fun hxf hyf => ?_, hx, fun hxf hyf => ?_⟩
  · obtain ⟨hvalue, hflag⟩ := hy hxf hyf
    exact ⟨hvalue.trans hhalf, hflag⟩
  · exact (hboth hxf hyf).trans hhalf

/-- Settles O27: the four cases of `flagThenWrite_values`; where `V[y]` is the flag, twice it does
not wrap. -/
theorem shiftLeftTakesFlagFromVxAndValueFromVy :
    Obligations.ShiftLeftTakesFlagFromVxAndValueFromVy := by
  intro x y s
  have htwice : 2 * ((getV s x).toNat / 128) % 256 = 2 * ((getV s x).toNat / 128) := by
    have ha : (getV s x).toNat < 256 := (getV s x).isLt
    omega
  obtain ⟨hnone, hy, hx, hboth⟩ := flagThenWrite_values (g := fun _ b => 2 * b % 256)
    (msbOf_flag_toNat (getV s x)) (fun _ b => byte_shiftLeft_one_toNat b) x y s
  refine ⟨_, exec_shl x y s, hnone, fun hxf hyf => ?_, hx, fun hxf hyf => ?_⟩
  · obtain ⟨hvalue, hflag⟩ := hy hxf hyf
    exact ⟨hvalue.trans htwice, hflag⟩
  · exact (hboth hxf hyf).trans htwice

/-- Settles O28: the supplied byte is the one drawn, and a mask bit that is 0 clears its bit of any
byte drawn. -/
theorem randomByteIsMaskedByTheImmediate : Obligations.RandomByteIsMaskedByTheImmediate := by
  intro x nn s
  refine ⟨fun r => ⟨_, rfl, fun k _ => ?_⟩, _, rfl, fun k _ hclear => ?_, rfl⟩ <;>
    rw [advance_eq, getV_jumpTo, getV_countDraw, getV_setV_self, BitVec.getLsbD_and]
  · rfl
  · rw [hclear, Bool.and_false]

end Sys2Proof.Proofs

/-! The laws of the index register and of the memory instructions (43_index_memory.md R120 to
R126). -/

namespace Sys2Proof.Machine

open Sys2Proof

/-! ### The decimal digits (43_index_memory.md R123) -/

section
variable (b : Byte)

theorem bcdHundreds_toNat : (bcdHundreds b).toNat = b.toNat / 100 :=
  Nat.mod_eq_of_lt ((Nat.div_le_self _ _).trans_lt b.isLt)

theorem bcdTens_toNat : (bcdTens b).toNat = b.toNat / 10 % 10 :=
  Nat.mod_eq_of_lt ((Nat.mod_lt _ (by decide)).trans (by decide))

theorem bcdOnes_toNat : (bcdOnes b).toNat = b.toNat % 10 :=
  Nat.mod_eq_of_lt ((Nat.mod_lt _ (by decide)).trans (by decide))

end

/-! ### The cells of the BCD store, Fx33 (43_index_memory.md R123) -/

/-- Fewer than 4096 neighbours of `I`, at different offsets, are different cells. -/
theorem cellOf_effAddr_ne (s : State) {i j : Nat} (hi : i < 4096) (hj : j < 4096) (hij : i ≠ j) :
    cellOf (effAddr s i) ≠ cellOf (effAddr s j) :=
  mt (cellOf_effAddr_inj s hi hj) hij

section
variable (s : State) (b : Byte)

theorem memRead_storeBcd_zero : memRead (storeBcd s b) (effAddr s 0) = bcdHundreds b := by
  have h2 : cellOf (effAddr s 0) ≠ cellOf (effAddr s 2) :=
    cellOf_effAddr_ne s (by decide) (by decide) (by decide)
  have h1 : cellOf (effAddr s 0) ≠ cellOf (effAddr s 1) :=
    cellOf_effAddr_ne s (by decide) (by decide) (by decide)
  rw [memRead_storeBcd, if_neg h2, if_neg h1, if_pos rfl]

theorem memRead_storeBcd_one : memRead (storeBcd s b) (effAddr s 1) = bcdTens b := by
  have h2 : cellOf (effAddr s 1) ≠ cellOf (effAddr s 2) :=
    cellOf_effAddr_ne s (by decide) (by decide) (by decide)
  rw [memRead_storeBcd, if_neg h2, if_pos rfl]

theorem memRead_storeBcd_two : memRead (storeBcd s b) (effAddr s 2) = bcdOnes b := by
  rw [memRead_storeBcd, if_pos rfl]

end

/-! ### The register load, Fx65 (43_index_memory.md R125) -/

/-- The load reads every cell of the state it started in: it writes registers only. -/
theorem getV_loadRegs (x i : Reg) (s : State) :
    getV ((regsUpTo x).foldl loadReg s) i =
      if i ≤ x then memRead s (effAddr s i.val) else getV s i := by
  simp only [getV_foldl_loadReg, mem_regsUpTo]

end Sys2Proof.Machine

namespace Sys2Proof.Proofs

open Sys2Proof Sys2Proof.Machine

/-- Settles O36: each instruction is one write of `I`; the byte times 5 does not wrap. -/
theorem indexRegisterWrites : Obligations.IndexRegisterWrites := by
  refine ⟨fun nnn s => ⟨decode_encode (.ldI nnn), _, rfl, ?_, fun _ => rfl, rfl, rfl⟩,
    fun x s => ⟨decode_encode (.addI x), _, rfl, ?_, fun _ => rfl, rfl, rfl⟩,
    fun x s => ⟨decode_encode (.ldF x), _, rfl, ?_, fun _ => rfl, rfl, rfl⟩⟩ <;>
    rw [advance_eq, jumpTo_index, setIndex_index]
  · exact zextAddr_toNat nnn
  · rw [BitVec.toNat_add, zextByte_toNat]
  · exact glyphAddr_toNat (getV s x)

/-- Settles O37: the three cells are different cells, so each keeps the digit stored there. -/
theorem bcdStoresThreeDigits : Obligations.BcdStoresThreeDigits := by
  intro x s
  refine ⟨_, rfl, ?_, ?_, ?_, rfl⟩ <;> rw [memRead_mod, advance_eq, memRead_jumpTo]
  · exact (congrArg BitVec.toNat (memRead_storeBcd_zero s _)).trans (bcdHundreds_toNat _)
  · exact (congrArg BitVec.toNat (memRead_storeBcd_one s _)).trans (bcdTens_toNat _)
  · exact (congrArg BitVec.toNat (memRead_storeBcd_two s _)).trans (bcdOnes_toNat _)

/-- Settles O38: the cell of each stored register holds it, and the stores change memory only. -/
theorem storeRegistersWritesTheRange : Obligations.StoreRegistersWritesTheRange := by
  intro x s
  refine ⟨_, exec_stRegs x s, fun i hi => ?_, ?_⟩
  · rw [memRead_mod, memRead_jumpTo]
    exact memRead_storeRegs s hi rfl
  · rw [jumpTo_index, foldl_storeReg_eq]

/-- Settles O39: each register of the range holds its cell, and the loads change registers only. -/
theorem loadRegistersReadsTheRange : Obligations.LoadRegistersReadsTheRange := by
  intro x s
  refine ⟨_, rfl, fun i => ?_, ?_⟩
  · rw [advance_eq, getV_jumpTo, memRead_mod]
    exact getV_loadRegs x i s
  · rw [advance_eq, jumpTo_index, foldl_loadReg_eq]

end Sys2Proof.Proofs

/-! The laws of the display instructions (44_display.md R130 to R133): the pixels and the flag after
a draw, the same draw again, and that no other instruction reads or writes the framebuffer. -/

namespace Sys2Proof.Safety

open Sys2Proof Sys2Proof.Machine

/-! ### One draw (44_display.md R131) -/

/-- The pixels that `Dxyn` inverts, started in state `s`. -/
def drawnPixels (s : State) (x y : Reg) (n : Fin 16) : List Nat :=
  spritePixels s (getV s x) (getV s y) s.index.toNat n.val

theorem mem_drawnPixels {s : State} {x y : Reg} {n : Fin 16} {p : Nat} :
    p ∈ drawnPixels s x y n ↔ spriteCovers s x y n p :=
  (spriteCovers_iff_mem s x y n p).symm

theorem drawnPixels_lt {s : State} {x y : Reg} {n : Fin 16} :
    ∀ p ∈ drawnPixels s x y n, p < Config.fbPixels :=
  spritePixels_lt _ _ _ _ _

/-- At most 15 rows, so no pixel is inverted twice. -/
theorem nodup_drawnPixels (s : State) (x y : Reg) (n : Fin 16) : (drawnPixels s x y n).Nodup :=
  nodup_spritePixels _ _ _ _ _ (by omega)

section
variable {s t : State} {x y : Reg} {n : Fin 16} (h : exec (.drw x y n) s = .next t)
include h

theorem fbGet_of_exec_drw (p : Nat) :
    fbGet t p = (fbGet s p ^^ decide (p ∈ drawnPixels s x y n)) := by
  rw [exec_drw] at h
  cases h
  exact fbGet_foldl_hitPixel _ _ p (nodup_drawnPixels s x y n) drawnPixels_lt

theorem flag_of_exec_drw :
    getV t flagReg = if ∃ p ∈ drawnPixels s x y n, fbGet s p = true then 1 else 0 := by
  rw [exec_drw] at h
  cases h
  refine (getV_foldl_hitPixel _ (setFlag s false) flagReg (nodup_drawnPixels s x y n)
    drawnPixels_lt).trans ?_
  simp [flagByte]

theorem flag_eq_one_iff_of_exec_drw :
    getV t flagReg = 1 ↔ ∃ p ∈ drawnPixels s x y n, fbGet s p = true := by
  rw [flag_of_exec_drw h, ite_eq_left_iff]
  simp

/-- What the draw reads beside the framebuffer is as before, unless `VF` is a coordinate. -/
theorem drawnPixels_of_exec_drw (hx : x ≠ flagReg) (hy : y ≠ flagReg) :
    drawnPixels t x y n = drawnPixels s x y n := by
  have hreg {r : Reg} (hr : r ≠ flagReg) : getV t r = getV s r :=
    framed_of_display rfl s t (.reg r) h hr
  have hindex : t.index = s.index := framed_of_display rfl s t .index h id
  have hmem (a : Nat) : memRead t a = memRead s a := framed_of_display rfl s t (.cell a) h id
  simp only [drawnPixels, spritePixels, hreg hx, hreg hy, hindex, hmem]

end

end Sys2Proof.Safety

namespace Sys2Proof.Machine

open Sys2Proof

/-! ### Independence of the framebuffer (44_display.md R133)

Every operation but those of CLS and DRW does the same whatever `fb` holds, and keeps it. -/

/-- The state with another framebuffer. -/
def withFb (f : BitVec Config.fbPixels) (s : State) : State := { s with fb := f }

@[simp] theorem withFb_fb (f : BitVec Config.fbPixels) (s : State) : (withFb f s).fb = f := rfl

theorem popPc_withFb (f : BitVec Config.fbPixels) (s : State) :
    popPc (withFb f s) = (popPc s).map fun p => (p.1, withFb f p.2) := by
  by_cases hlive : 0 < s.sp.val <;> simp [popPc, withFb, hlive]

theorem pushPc_withFb (f : BitVec Config.fbPixels) (s : State) :
    pushPc (withFb f s) = (pushPc s).map (withFb f) := by
  by_cases hfree : s.sp.val < 16 <;> simp [pushPc, withFb, hfree]

theorem exec_withFb {i : Instr} {s t : State} (hi : i.family ≠ .display)
    (h : exec i s = .next t) (f : BitVec Config.fbPixels) :
    exec i (withFb f s) = .next (withFb f t) := by
  cases i with
  | cls | drw => exact absurd rfl hi
  | ret =>
    simp only [exec, execRet, popPc_withFb] at h ⊢
    cases hpop : popPc s <;> rw [hpop] at h <;> cases h <;> rfl
  | call nnn =>
    simp only [exec, execCall, pushPc_withFb] at h ⊢
    cases hpush : pushPc s <;> rw [hpush] at h <;> cases h <;> rfl
  | jp nnn =>
    have hpc : (withFb f s).pc = s.pc := rfl
    obtain ⟨hself, rfl⟩ | ⟨hne, rfl⟩ := exec_jp_cases h
    · rw [exec, execJp, hpc, if_pos hself]; rfl
    · rw [exec, execJp, hpc, if_neg hne]; rfl
  | ldVxK x =>
    have hsame : pressedKeys (withFb f s) = pressedKeys s := rfl
    simp only [exec, execLdVxK, hsame] at h ⊢
    split at h <;> cases h <;> rfl
  | stRegs x =>
    cases h
    have hloop : (regsUpTo x).foldl storeReg (withFb f s) =
        withFb f ((regsUpTo x).foldl storeReg s) := List.foldl_hom _ fun _ _ => rfl
    exact congrArg (fun u => Host.Outcome.next (advance u)) hloop
  | ldRegs x =>
    cases h
    have hloop : (regsUpTo x).foldl loadReg (withFb f s) =
        withFb f ((regsUpTo x).foldl loadReg s) := List.foldl_hom _ fun _ _ => rfl
    exact congrArg (fun u => Host.Outcome.next (advance u)) hloop
  | _ => cases h; rfl

section
variable {s t : State} (h : step s = .next t)
  (hno : ∀ i, decode (fetchWord s) = .ok i → i.family ≠ .display)
include h hno

theorem step_withFb (f : BitVec Config.fbPixels) : step (withFb f s) = .next (withFb f t) := by
  obtain ⟨u, hu, rfl⟩ := step_cases h
  refine step_of_execute (s := withFb f s) (u := withFb f u) ?_
  have hfetch : fetchWord (withFb f s) = fetchWord s := rfl
  rw [hfetch]
  cases hd : decode (fetchWord s) with
  | error e => rw [hd] at hu; cases hu; rfl
  | ok i => rw [hd] at hu; exact exec_withFb (hno i hd) hu f

/-- Independence with the framebuffer the state already holds. -/
theorem step_fb : t.fb = s.fb := by
  have hkept : t = withFb s.fb t :=
    Host.Outcome.next.inj (h.symm.trans (step_withFb h hno s.fb))
  rw [hkept, withFb_fb]

end

end Sys2Proof.Machine

namespace Sys2Proof.Safety

open Sys2Proof Sys2Proof.Machine

theorem mayWrite_fbDirty_family {i : Instr} {s : State} (h : mayWrite i s .fbDirty) :
    i.family = .display := by
  obtain rfl | ⟨x, y, n, rfl⟩ := mayWrite_fbDirty h <;> rfl

theorem step_fbDirty {s t : State} (h : step s = .next t)
    (hno : ∀ i, decode (fetchWord s) = .ok i → i.family ≠ .display) : t.fbDirty = s.fbDirty := by
  obtain ⟨u, hu, rfl⟩ := step_cases h
  cases hd : decode (fetchWord s) with
  | error e => rw [hd] at hu; cases hu; rfl
  | ok i =>
    rw [hd] at hu
    exact framed_all i (latchFetch s) u .fbDirty hu (mt mayWrite_fbDirty_family (hno i hd))

end Sys2Proof.Safety

namespace Sys2Proof.Proofs

open Sys2Proof Sys2Proof.Machine Sys2Proof.Safety

/-- Settles O42: the loops are one pass over the drawn pixels, no pixel of which comes twice. -/
theorem drawInvertsCoveredPixelsAndReportsCollision :
    Obligations.DrawInvertsCoveredPixelsAndReportsCollision := by
  intro x y n s
  obtain ⟨t, ht⟩ := exec_answers (.drw x y n) s
  simp only [← mem_drawnPixels]
  refine ⟨t, ht, fun p => ⟨fun hp => ?_, fun hp => ?_⟩, ?_, fun hclear => ?_, ?_⟩
  · simp [fbGet_of_exec_drw ht, hp]
  · simp [fbGet_of_exec_drw ht, hp]
  · exact (flag_eq_one_iff_of_exec_drw ht).mpr
  · have hnone : ¬ ∃ p ∈ drawnPixels s x y n, fbGet s p = true := by
      rintro ⟨p, hp, hset⟩
      simp [hclear p hp] at hset
    exact (flag_of_exec_drw ht).trans (if_neg hnone)
  · exact exec_fbDirty_of_mayWrite ht trivial

/-- Settles O43: the second draw inverts the same pixels, and meets each of them inverted. -/
theorem drawingTwiceRestoresTheScreen : Obligations.DrawingTwiceRestoresTheScreen := by
  intro x y n s t u hx hy ht hu
  have hagain := drawnPixels_of_exec_drw ht hx hy
  refine ⟨fun p => ?_, ?_⟩
  · rw [fbGet_of_exec_drw hu, hagain, fbGet_of_exec_drw ht, Bool.xor_assoc, Bool.xor_self,
      Bool.xor_false]
  · rw [flag_eq_one_iff_of_exec_drw hu, hagain]
    refine exists_congr fun p => ?_
    rw [← mem_drawnPixels]
    refine and_congr_right fun hp => ?_
    simp [fbGet_of_exec_drw ht, hp]

/-- Settles O44: every other word goes through the step with `fb` unread and unwritten. -/
theorem onlyDisplayInstructionsTouchTheFramebuffer :
    Obligations.OnlyDisplayInstructionsTouchTheFramebuffer :=
  fun _ _ h hno => ⟨step_fb h hno, step_fbDirty h hno, step_withFb h hno⟩

/-- Settles O41: CLS is the clear and the dirty flag, and writes no register. -/
theorem clearScreenZeroesEveryPixel : Obligations.ClearScreenZeroesEveryPixel :=
  fun s => ⟨_, rfl, fun _ _ _ _ => fbGet_fbClear_apply s _, rfl, fun _ => rfl⟩

end Sys2Proof.Proofs

/-! The laws of the keypad and the timers (45_keys_timers.md R135 to R141): which key a register
names, which pressed key Fx0A loads, and which byte a timer gives. -/

namespace Sys2Proof.Machine

open Sys2Proof

/-! ### The key that a register names, and the skips on it (45_keys_timers.md R135, R136, R141) -/

/-- The skips wrap at 65536 (92_eei_decisions.md D3). -/
theorem skipIf_pc_toNat (s : State) (c : Bool) : (skipIf s c).pc.toNat =
    (s.pc.toNat + if c = true then 4 else 2) % 65536 := by
  cases c <;> exact BitVec.toNat_add s.pc _

theorem skipIf_not_pc_toNat (s : State) (c : Bool) : (skipIf s (!c)).pc.toNat =
    (s.pc.toNat + if c = true then 2 else 4) % 65536 := by
  cases c <;> exact BitVec.toNat_add s.pc _

theorem keyOf_eq_iff (b : Byte) (k : Key) : keyOf b = k ↔ k.val = b.toNat % 16 :=
  Fin.ext_iff.trans eq_comm

/-! ### The key that Fx0A loads (45_keys_timers.md R137, 92_eei_decisions.md D14)

`pickKey` is given the pressed keys as `k :: ks`: their first or their last, as the policy says. -/

theorem byteOfKey_toNat (k : Key) : (byteOfKey k).toNat = k.val :=
  (BitVec.toNat_ofNat k.val 8).trans (Nat.mod_eq_of_lt (by omega))

theorem pickKey_lowest (k : Key) (ks : List Key) : pickKey .lowest k ks = k := by
  cases ks <;> rfl

theorem pickKey_highest (k : Key) (ks : List Key) :
    pickKey .highest k ks = (k :: ks).getLast (List.cons_ne_nil k ks) := by
  cases ks <;> rfl

theorem pickKey_mem (policy : Config.KeywaitPick) (k : Key) (ks : List Key) :
    pickKey policy k ks ∈ k :: ks := by
  cases policy with
  | lowest =>
    rw [pickKey_lowest]
    exact List.mem_cons_self
  | highest =>
    rw [pickKey_highest]
    exact List.getLast_mem _

section
variable {s : State} {k : Key} {ks : List Key}

theorem pressedKeys_eq_nil_iff : pressedKeys s = [] ↔ ∀ j, keyDown s j = false := by
  simp [List.eq_nil_iff_forall_not_mem, mem_pressedKeys]

variable (hkeys : pressedKeys s = k :: ks)
include hkeys

theorem keyDown_pickKey (policy : Config.KeywaitPick) : keyDown s (pickKey policy k ks) = true :=
  (mem_pressedKeys s _).mp (hkeys ▸ pickKey_mem policy k ks)

theorem mem_of_keyDown {j : Key} (hj : keyDown s j = true) : j ∈ k :: ks :=
  hkeys ▸ (mem_pressedKeys s j).mpr hj

theorem pairwise_le_of_pressedKeys : (k :: ks).Pairwise (· ≤ ·) :=
  hkeys ▸ (pressedKeys_sorted s).imp le_of_lt

theorem pickKey_lowest_le {j : Key} (hj : keyDown s j = true) : pickKey .lowest k ks ≤ j := by
  rw [pickKey_lowest]
  exact (pairwise_le_of_pressedKeys hkeys).rel_head (mem_of_keyDown hkeys hj)

theorem le_pickKey_highest {j : Key} (hj : keyDown s j = true) : j ≤ pickKey .highest k ks := by
  rw [pickKey_highest]
  exact (pairwise_le_of_pressedKeys hkeys).rel_getLast (mem_of_keyDown hkeys hj)

end

/-! ### The byte that a timer gives (45_keys_timers.md R138) -/

theorem lowByte_toNat (t : Word) : (lowByte t).toNat = t.toNat % 256 :=
  BitVec.extractLsb'_toNat 0 8 t

end Sys2Proof.Machine

namespace Sys2Proof.Proofs

open Sys2Proof Sys2Proof.Machine

/-- Settles O46, by whether a key is down: if none is, the wait's jump to `pc0` is no change; else
the pressed keys ascend, so the first of them is the lowest and the last the highest. -/
theorem keyWaitLoadsAPressedKey : Obligations.KeyWaitLoadsAPressedKey := by
  intro x s
  obtain ⟨t, ht⟩ := exec_answers (.ldVxK x) s
  refine ⟨t, ht, ?_⟩
  obtain ⟨hnone, rfl⟩ | ⟨k, ks, hkeys, rfl⟩ := exec_ldVxK_cases ht
  · have hup := pressedKeys_eq_nil_iff.mp hnone
    exact ⟨fun _ => rfl, fun ⟨j, hj⟩ => absurd hj (by simp [hup j])⟩
  · have hdown := keyDown_pickKey hkeys Config.keywaitPick
    refine ⟨fun hup => absurd hdown (by simp [hup]), fun _ => ⟨pc_add_two_toNat s.pc,
      pickKey Config.keywaitPick k ks, hdown, ?_, fun hp j hj => ?_, fun hp j hj => ?_⟩⟩
    · rw [advance_eq, getV_jumpTo, getV_setV_self, byteOfKey_toNat]
    · rw [hp]
      exact pickKey_lowest_le hkeys hj
    · rw [hp]
      exact le_pickKey_highest hkeys hj

/-- Settles O45: both skips test the key that the register names, SKNP the other way. -/
theorem keySkipsTestTheNamedKey : Obligations.KeySkipsTestTheNamedKey := by
  intro x k s hk
  obtain rfl := (keyOf_eq_iff (getV s x) k).mpr hk
  exact ⟨⟨_, rfl, skipIf_pc_toNat s _⟩, ⟨_, rfl, skipIf_not_pc_toNat s _⟩⟩

/-- Settles O47: one register write of a low byte, and two timer writes of a zero-extended byte. -/
theorem timerInstructionsMoveTheirBytes : Obligations.TimerInstructionsMoveTheirBytes := by
  intro x s
  refine ⟨⟨_, rfl, ?_, rfl⟩, ⟨_, rfl, zextByte_toNat (getV s x), rfl⟩,
    ⟨_, rfl, zextByte_toNat (getV s x), rfl⟩⟩
  rw [advance_eq, getV_jumpTo, getV_setV_self, lowByte_toNat]

end Sys2Proof.Proofs

/-! The diagnostics (60_exceptions.md R150 to R154): a step raises the one whose cause is there. -/

namespace Sys2Proof.Safety

open Sys2Proof Sys2Proof.Machine

/-- The execute phase records the diagnostic whose cause is there: for a rejected word its no-op
(60_exceptions.md R151), for an instruction its own (R152 to R154). -/
theorem execute_records {d : Except DecodeReject Instr} {s t : State} {code : DiagCode}
    (h : execute d s = .next t) (hc : causes d s code) :
    records ⟨code, s.pc, s.currentOpcode⟩ s t := by
  cases d with
  | ok i => exact exec_records h hc
  | error e =>
    cases h
    cases code with
    | unrecognizedOpcode => simp [records]
    | selfJump => obtain ⟨nnn, hd, -⟩ := hc; cases hd
    | stackOverflow => obtain ⟨⟨nnn, hd⟩, -⟩ := hc; cases hd
    | stackUnderflow => obtain ⟨hd, -⟩ := hc; cases hd

/-- A step records the diagnostic whose cause is there, with `pc0` and the word. -/
theorem step_records {s t : State} {code : DiagCode} (h : step s = .next t)
    (hc : causes (decode (fetchWord s)) s code) : records ⟨code, s.pc, fetchWord s⟩ s t := by
  obtain ⟨u, hu, rfl⟩ := step_cases h
  have hlatched : causes (decode (fetchWord s)) (latchFetch s) code := by cases code <;> exact hc
  exact execute_records hu hlatched

theorem step_diag_iff {s t : State} (h : step s = .next t) (d : Diag) :
    t.diag = some d ↔
      d.pc = s.pc ∧ d.opcode = fetchWord s ∧ causes (decode (fetchWord s)) s d.code := by
  constructor
  · intro hd
    obtain ⟨-, hnone, -⟩ | ⟨code, hc, hdiag, -⟩ := step_diagnostics h
    · cases hnone.symm.trans hd
    · cases hdiag.symm.trans hd
      exact ⟨rfl, rfl, hc⟩
  · obtain ⟨code, pc, opcode⟩ := d
    rintro ⟨rfl, rfl, hc⟩
    obtain ⟨hdiag, -⟩ := step_records h hc
    exact hdiag

end Sys2Proof.Safety

namespace Sys2Proof.Proofs

open Sys2Proof Sys2Proof.Machine Sys2Proof.Safety

/-- Settles O13: `step_diag_iff` with each cause written out; the self-jump test is one of numbers. -/
theorem diagnosticsAreRaisedExactlyByTheirCauses :
    Obligations.DiagnosticsAreRaisedExactlyByTheirCauses := by
  rintro s t h ⟨code, pc, opcode⟩
  rw [step_diag_iff h]
  cases code with
  | selfJump => simp only [causes, zextAddr_eq_iff]
  | unrecognizedOpcode => exact Iff.rfl
  | stackOverflow => exact Iff.rfl
  | stackUnderflow => exact Iff.rfl

end Sys2Proof.Proofs

/-! The boot (70_reset_and_hazards.md R181 to R183): what the `load` port writes and leaves
unchanged, the launch state, and when a ROM is refused. -/

namespace Sys2Proof.Machine

open Sys2Proof

/-! ### The `load` port (10_state.md R32) -/

/-- An address of the 4096-cell space is its own cell (20_memory.md R41). -/
theorem cellOf_of_lt {a : Nat} (h : a < 4096) : cellOf a = a := Nat.mod_eq_of_lt h

theorem memRead_loadByte_self (s : State) (a : Nat) (b : Byte) :
    memRead (loadByte s a b) a = b := by
  rw [loadByte, memRead_memWrite, if_pos rfl]

theorem memRead_loadByte_ne (s : State) {a k : Nat} (b : Byte) (ha : a < 4096) (hk : k < 4096)
    (h : k ≠ a) : memRead (loadByte s a b) k = memRead s k := by
  rw [loadByte, memRead_memWrite, cellOf_of_lt ha, cellOf_of_lt hk, if_neg h]

/-- A load of a block that ends in the address space keeps every cell outside the block. -/
theorem memRead_loadBytes_outside {base : Nat} {bs : List Byte} (s : State) {k : Nat}
    (hfit : base + bs.length ≤ 4096) (hk : k < 4096) (hout : k < base ∨ base + bs.length ≤ k) :
    memRead (loadBytes base bs s) k = memRead s k := by
  induction bs generalizing base s with
  | nil => rfl
  | cons b bs ih =>
    rw [List.length_cons] at hfit hout
    calc memRead (loadBytes (base + 1) bs (loadByte s base b)) k
      _ = memRead (loadByte s base b) k := ih _ (by omega) (by omega)
      _ = memRead s k := memRead_loadByte_ne s b (by omega) hk (by omega)

/-- A load of a block that ends in the address space puts each byte at its own address. -/
theorem memRead_loadBytes_inside {base : Nat} {bs : List Byte} (s : State) {j : Nat}
    (hfit : base + bs.length ≤ 4096) (hj : j < bs.length) :
    memRead (loadBytes base bs s) (base + j) = bs[j] := by
  induction bs generalizing base s j with
  | nil => cases hj
  | cons b bs ih =>
    rw [List.length_cons] at hfit hj
    cases j with
    | zero =>
      calc memRead (loadBytes (base + 1) bs (loadByte s base b)) base
        _ = memRead (loadByte s base b) base :=
          memRead_loadBytes_outside _ (by omega) (by omega) (.inl (by omega))
        _ = b := memRead_loadByte_self s base b
    | succ j =>
      rw [← Nat.succ_add_eq_add_succ base j]
      exact ih (loadByte s base b) (by omega) (by omega)

/-- A load changes nothing but memory. -/
theorem loadBytes_eq (base : Nat) (bs : List Byte) (s : State) :
    loadBytes base bs s = { s with memory := (loadBytes base bs s).memory } := by
  induction bs generalizing base s with
  | nil => rfl
  | cons b bs ih => exact ih (base + 1) (loadByte s base b)

/-! ### The launch (70_reset_and_hazards.md R182, R183) -/

/-- The state that the loader answers for a ROM that fits: the font, then the ROM, over the reset
state. -/
def launchState (font : Vector Byte Config.fontSize) (rom : List Byte) : State :=
  loadBytes Config.romBase rom (loadFont font State.reset)

theorem launch_of_fits (font : Vector Byte Config.fontSize) {rom : List Byte}
    (h : rom.length ≤ 3584) : launch font rom = .launched (launchState font rom) :=
  if_neg (Nat.not_lt.mpr h)

theorem launch_of_tooLarge (font : Vector Byte Config.fontSize) {rom : List Byte}
    (h : 3584 < rom.length) : launch font rom = .romTooLarge rom.length :=
  if_pos h

section
variable (font : Vector Byte 80)

theorem memRead_loadFont {a : Nat} (h : a < 80) :
    memRead (loadFont font State.reset) a = font[a] := by
  have hread := memRead_loadBytes_inside (base := 0) (bs := font.toList) State.reset (j := a)
    (by simp) (by simpa using h)
  rwa [Nat.zero_add, Vector.getElem_toList] at hread

theorem memRead_loadFont_above {a : Nat} (h : 80 ≤ a) (ha : a < 4096) :
    memRead (loadFont font State.reset) a = 0 :=
  memRead_loadBytes_outside (base := 0) State.reset (by simp [Config.fontSize]) ha
    (.inr (by simpa using h))

variable {rom : List Byte} (hfit : rom.length ≤ 3584)
include hfit

/-- The ROM is loaded over the font without touching a cell outside its own range. -/
theorem memRead_launchState_outside {a : Nat} (ha : a < 4096)
    (hout : a < 0x200 ∨ 0x200 + rom.length ≤ a) :
    memRead (launchState font rom) a = memRead (loadFont font State.reset) a :=
  memRead_loadBytes_outside _ (Nat.add_le_add_left hfit 0x200) ha hout

theorem memRead_launchState_rom {j : Nat} (hj : j < rom.length) :
    memRead (launchState font rom) (0x200 + j) = rom[j] :=
  memRead_loadBytes_inside _ (Nat.add_le_add_left hfit 0x200) hj

end

theorem launchState_eq (font : Vector Byte Config.fontSize) (rom : List Byte) :
    launchState font rom = { State.reset with memory := (launchState font rom).memory } := by
  have hfont : loadFont font State.reset =
      { State.reset with memory := (loadFont font State.reset).memory } := loadBytes_eq _ _ _
  have hrom : launchState font rom =
      { loadFont font State.reset with memory := (launchState font rom).memory } :=
    loadBytes_eq _ _ _
  rwa [hfont] at hrom

end Sys2Proof.Machine

namespace Sys2Proof.Proofs

open Sys2Proof Sys2Proof.Machine Sys2Proof.Safety

/-- Settles O2: each of the four address ranges is inside one of the two loads or outside both; the
list is canonical by `StateInv.launch`. -/
theorem launchStateHoldsFontAndRom : Obligations.LaunchStateHoldsFontAndRom := by
  intro font rom hfit
  have hlaunch := launch_of_fits font hfit
  refine ⟨launchState font rom, hlaunch, fun a ha => ?_, fun j hj => ?_, fun a hlo hhi => ?_,
    fun a hlo hhi => ?_, (StateInv.launch hlaunch).memory, ?_⟩
  · rw [memRead_launchState_outside font hfit (by omega) (.inl (by omega)), memRead_loadFont]
  · exact memRead_launchState_rom font hfit hj
  · rw [memRead_launchState_outside font hfit (by omega) (.inl hhi),
      memRead_loadFont_above font hlo (by omega)]
  · rw [memRead_launchState_outside font hfit hhi (.inr hlo),
      memRead_loadFont_above font (by omega) hhi]
  · rw [launchState_eq]
    rfl

/-- Settles O3, by whether the ROM fits; the two answers exclude each other. -/
theorem romIsLaunchedExactlyWhenItFits : Obligations.RomIsLaunchedExactlyWhenItFits := by
  intro font rom
  rcases Nat.lt_or_ge 3584 rom.length with hlarge | hfit
  · simp [launch_of_tooLarge font hlarge, hlarge]
  · simp [launch_of_fits font hfit, hfit]

end Sys2Proof.Proofs
